-- ==== Sys2Proof/Word.lean ====
section
/-!
DEFINITION. Sys2Proof/Word.lean: the widths of the block's words (00_scope.md R6, 30_encoding.md R70, R73).
Every quantity is unsigned (43_codec_laws.md R130).
-/

namespace Sys2Proof

/-- A byte, 0 to 255 (R9). -/
abbrev Byte := BitVec 8

/-- A Value, and the request operand: 64 bits unsigned (R6, R31). -/
abbrev Value := BitVec 64

/-- A byte count in a response, 4 bits, 1 to 9 used (R6, R32). -/
abbrev Count := BitVec 4

/-- The operation select field, 3 bits (R6, R71). -/
abbrev Select := BitVec 3

/-- A request word: `op` in bits 66 to 64, `operand` in bits 63 to 0 (R70). -/
abbrev RequestWord := BitVec 67

/-- A response word: `status` in bits 70 to 68, `count` in 67 to 64, `value` in 63 to 0 (R73). -/
abbrev ResponseWord := BitVec 71

end Sys2Proof
end

