-- ==== Sys2Proof/Config.lean ====
section
/-!
DEFINITION. Sys2Proof/Config.lean: the fixed parameters (00_scope.md R6). None varies between implementations.
The open parameters of R7 (HANDSHAKE, LATENCY, SINK_IMPL, SRC_IMPL, BUF_IMPL, N_INSTANCES, RESET_MID_TRANSACTION) are
read by no rule and have no definition here. No value computed by any operation is left open
(93_implementation_defined.md, part 1), so there is no free value.
-/

namespace Sys2Proof.Config

/-- BASE (R6): "the threshold below which values are single-byte encoded verbatim". -/
abbrev base : Nat := 0xF8

/-- VALUE_MAX (R6): the largest Value, 2^64 − 1. -/
abbrev valueMax : Nat := 0xFFFFFFFFFFFFFFFF

/-- MAX_LEN (R6): the longest encoded form, in bytes. -/
abbrev maxLen : Nat := 9

end Sys2Proof.Config
end

