-- ==== Sys2Proof/Syntax.lean ====
section
/-!
DEFINITION. Sys2Proof/Syntax.lean: the instructions, one constructor per row of spec/opcode_table.json
(30_encoding.md R78): eight rows of format `REQ`, one of format `CORE`, thirteen of format `WIRE`.
-/

namespace Sys2Proof

/-- The operations of the block (R2, R71), the decoder core (R110), and the classes of encoded form the decoder
meets (R61 to R63, R78). -/
inductive Instr where
  /-- SIZE, `op` 0 (R90): the Value whose encoded length is asked. -/
  | size (value : Value)
  /-- HSIZE, `op` 1 (R91): a header as an unsigned integer, in the 64-bit operand field. -/
  | hsize (header : Value)
  /-- ENC, `op` 2 (R100): the Value to append to `SINK`. -/
  | enc (value : Value)
  /-- ENCS, `op` 3 (R101): the Value to write to `SSINK` in one event. -/
  | encs (value : Value)
  /-- DEC, `op` 4 (R111): the operand bits are carried and ignored (R72). -/
  | dec (ignored : Value)
  /-- DECS, `op` 5 (R112): the operand bits are carried and ignored (R72). -/
  | decs (ignored : Value)
  /-- The illegal select code 6 (R75). -/
  | illegal6 (ignored : Value)
  /-- The illegal select code 7 (R75). -/
  | illegal7 (ignored : Value)
  /-- DECB (R110): header byte, announced size and body, handed over by the decoder's front end. -/
  | decb (header : Byte) (expectedSize : Nat) (body : List Byte)
  /-- Header 0x00 to 0x7F, `0vvvvvvv` (R61). -/
  | ilint1_00 (v : BitVec 7)
  /-- Header 0x80 to 0xBF, `10vvvvvv` (R61). -/
  | ilint1_80 (v : BitVec 6)
  /-- Header 0xC0 to 0xDF, `110vvvvv` (R61). -/
  | ilint1_C0 (v : BitVec 5)
  /-- Header 0xE0 to 0xEF, `1110vvvv` (R61). -/
  | ilint1_E0 (v : BitVec 4)
  /-- Header 0xF0 to 0xF7, `11110vvv` (R61). -/
  | ilint1_F0 (v : BitVec 3)
  /-- Header 0xF8, one body byte (R62). -/
  | ilint2 (body : List Byte)
  /-- Header 0xF9, two body bytes (R62). -/
  | ilint3 (body : List Byte)
  /-- Header 0xFA, three body bytes (R62). -/
  | ilint4 (body : List Byte)
  /-- Header 0xFB, four body bytes (R62). -/
  | ilint5 (body : List Byte)
  /-- Header 0xFC, five body bytes (R62). -/
  | ilint6 (body : List Byte)
  /-- Header 0xFD, six body bytes (R62). -/
  | ilint7 (body : List Byte)
  /-- Header 0xFE, seven body bytes (R62). -/
  | ilint8 (body : List Byte)
  /-- Header 0xFF, eight body bytes (R62). -/
  | ilint9 (body : List Byte)
  deriving DecidableEq, Repr

end Sys2Proof
end

