-- ==== Sys2Proof/WellFormed.lean ====
section
/-!
DEFINITION. Sys2Proof/WellFormed.lean: which terms of `Instr` are instructions of the block.
A request is always well-formed: every 64-bit operand may be presented (30_encoding.md R72). A multi-byte wire form has
the body length its header announces (R62). A call of the core keeps the contract on the caller (42_decoder.md R110).
-/

namespace Sys2Proof

/-- The contract of DECB (R110): the header announces a body, `expectedSize` agrees with it, and the body is not longer
than announced. That the body is the bytes that follow the header in the input is the front end's doing. -/
abbrev CoreContract (header : Byte) (expectedSize : Nat) (body : List Byte) : Prop :=
  Config.base ≤ header.toNat ∧ expectedSize = header.toNat - Config.base + 2 ∧ body.length ≤ expectedSize - 1

/-- The check, one case per constructor. -/
def Instr.wellFormed (i : Instr) : Bool :=
  match i with
  | .decb header expectedSize body => decide (CoreContract header expectedSize body)
  | .ilint2 body => body.length == 1
  | .ilint3 body => body.length == 2
  | .ilint4 body => body.length == 3
  | .ilint5 body => body.length == 4
  | .ilint6 body => body.length == 5
  | .ilint7 body => body.length == 6
  | .ilint8 body => body.length == 7
  | .ilint9 body => body.length == 8
  | .size _ | .hsize _ | .enc _ | .encs _ | .dec _ | .decs _ | .illegal6 _ | .illegal7 _ => true
  | .ilint1_00 _ | .ilint1_80 _ | .ilint1_C0 _ | .ilint1_E0 _ | .ilint1_F0 _ => true

/-- A well-formed instruction: one that passes the check. -/
abbrev Instr.WellFormed (i : Instr) : Prop := i.wellFormed = true

end Sys2Proof
end

