-- ==== Sys2Proof/Decode.lean ====
section
/-!
DEFINITION. Sys2Proof/Decode.lean: the decoder and, after it, the encoder, over the three formats of
spec/opcode_table.json: request words (30_encoding.md R70, R71), encoded forms on the wire (R60 to R64, R78) and the
operands of an internal core call (42_decoder.md R110). The decoder is total and rejects by name.
-/

namespace Sys2Proof

/-- Why a byte sequence does not begin with a form the wire decoder can read (R67). The operations DEC and DECS answer
the same two cases with ERR_NO_HEADER and ERR_TRUNCATED. Safe: a rejection gives no instruction. -/
inductive DecodeError where
  /-- The sequence is empty: there is no header byte. -/
  | noHeader
  /-- Fewer bytes follow the header than it announces. -/
  | truncated
  deriving DecidableEq, Repr

/-- What an instruction is carried as: a request word, the operands of a core call, or bytes on the wire. -/
inductive Code where
  /-- A 67-bit request word (R70). -/
  | request (w : RequestWord)
  /-- The values the decoder's front end hands to its core; the format `CORE` has no bits (R78). -/
  | core (header : Byte) (expectedSize : Nat) (body : List Byte)
  /-- The bytes of a byte space from some position on, first in stream order first. -/
  | wire (bytes : List Byte)
  deriving DecidableEq, Repr

/-! ### Request words -/

/-- The operation select `req[66:64]` (R70). -/
def selectOf (w : RequestWord) : Select := w.extractLsb' 64 3

/-- The operand `req[63:0]` (R70). -/
def operandOf (w : RequestWord) : Value := w.extractLsb' 0 64

/-- Every request word selects an operation or is one of the two illegal codes (R71). -/
def decodeRequest (w : RequestWord) : Instr :=
  let operand := operandOf w
  match (selectOf w).toNat with
  | 0 => .size operand
  | 1 => .hsize operand
  | 2 => .enc operand
  | 3 => .encs operand
  | 4 => .dec operand
  | 5 => .decs operand
  | 6 => .illegal6 operand
  | _ => .illegal7 operand

/-! ### The wire format -/

/-- The length of an encoded form from its header byte, as an integer (R64): 1 below BASE, else header − BASE + 2. -/
def formLength (header : Nat) : Nat :=
  if header < Config.base then 1 else header - Config.base + 2

/-- The row of format `WIRE` that a header byte matches (R78), with the body that follows it. The rows are tried in the
table's order; exactly one matches any byte. -/
def wireInstr (h : Byte) (body : List Byte) : Instr :=
  if h &&& 0x80#8 = 0x00#8 then .ilint1_00 (h.setWidth 7)
  else if h &&& 0xC0#8 = 0x80#8 then .ilint1_80 (h.setWidth 6)
  else if h &&& 0xE0#8 = 0xC0#8 then .ilint1_C0 (h.setWidth 5)
  else if h &&& 0xF0#8 = 0xE0#8 then .ilint1_E0 (h.setWidth 4)
  else if h &&& 0xF8#8 = 0xF0#8 then .ilint1_F0 (h.setWidth 3)
  else if h = 0xF8#8 then .ilint2 body
  else if h = 0xF9#8 then .ilint3 body
  else if h = 0xFA#8 then .ilint4 body
  else if h = 0xFB#8 then .ilint5 body
  else if h = 0xFC#8 then .ilint6 body
  else if h = 0xFD#8 then .ilint7 body
  else if h = 0xFE#8 then .ilint8 body
  else .ilint9 body

/-- The form at the front of a byte sequence, and the bytes after it (R64): one byte gives the length, then exactly
length − 1 more are taken. Forms that DEC would reject for a leading zero or for overflow are complete forms and are
read here; what they mean is an error response (R153, R154). -/
def decodeForm (bytes : List Byte) : Except DecodeError (Instr × List Byte) :=
  match bytes with
  | [] => .error .noHeader
  | h :: rest =>
    let n := formLength h.toNat - 1
    if rest.length < n then .error .truncated
    else .ok (wireInstr h (rest.take n), rest.drop n)

/-- The whole decoder. On the wire it reads the form the bytes begin with. -/
def decode (c : Code) : Except DecodeError Instr :=
  match c with
  | .request w => .ok (decodeRequest w)
  | .core header expectedSize body => .ok (.decb header expectedSize body)
  | .wire bytes =>
    match decodeForm bytes with
    | .ok (i, _) => .ok i
    | .error e => .error e

/-! ### The opcode table's words -/

/-- The bytes of a wire form whose first byte is `h` and whose later bytes are all zero, as long as the longest form. -/
def zeroExtendedForm (h : Byte) : List Byte := h :: List.replicate (Config.maxLen - 1) 0x00#8

/-- The instruction in a word of the opcode table. The row's width tells the format: 8 bits are a header byte
(followed by zero bytes), 67 bits, or 72 in whole bytes, are a request word, and 0 bits are the core's row, whose operands
with every free bit zero are the header 0xF8, the size 2 that it announces and a body of one zero byte. -/
def decodeTableWord (nbits w : Nat) : Option Instr :=
  if nbits = 0 then
    if w = 0 then some (.decb 0xF8#8 2 [0x00#8]) else none
  else if nbits = 8 then
    if w < 2 ^ 8 then
      match decode (.wire (zeroExtendedForm (BitVec.ofNat 8 w))) with
      | .ok i => some i
      | .error _ => none
    else none
  else if 67 ≤ nbits ∧ nbits ≤ 72 then
    if w < 2 ^ 67 then some (decodeRequest (BitVec.ofNat 67 w)) else none
  else none

/-! ### The encoder -/

/-- The request word of an operation select and an operand (R70). -/
def requestWord (op : Select) (operand : Value) : RequestWord := op ++ operand

/-- The words of an instruction, from the table's formats: the select codes of R71, the header bytes of R63. -/
def encode (i : Instr) : Code :=
  match i with
  | .size v => .request (requestWord 0#3 v)
  | .hsize h => .request (requestWord 1#3 h)
  | .enc v => .request (requestWord 2#3 v)
  | .encs v => .request (requestWord 3#3 v)
  | .dec x => .request (requestWord 4#3 x)
  | .decs x => .request (requestWord 5#3 x)
  | .illegal6 x => .request (requestWord 6#3 x)
  | .illegal7 x => .request (requestWord 7#3 x)
  | .decb header expectedSize body => .core header expectedSize body
  | .ilint1_00 v => .wire [0b0#1 ++ v]
  | .ilint1_80 v => .wire [0b10#2 ++ v]
  | .ilint1_C0 v => .wire [0b110#3 ++ v]
  | .ilint1_E0 v => .wire [0b1110#4 ++ v]
  | .ilint1_F0 v => .wire [0b11110#5 ++ v]
  | .ilint2 body => .wire (0xF8#8 :: body)
  | .ilint3 body => .wire (0xF9#8 :: body)
  | .ilint4 body => .wire (0xFA#8 :: body)
  | .ilint5 body => .wire (0xFB#8 :: body)
  | .ilint6 body => .wire (0xFC#8 :: body)
  | .ilint7 body => .wire (0xFD#8 :: body)
  | .ilint8 body => .wire (0xFE#8 :: body)
  | .ilint9 body => .wire (0xFF#8 :: body)

/-! ### The table's rows -/

/-- One row of format `WIRE`: mask and match over the header byte, and the form's whole length (R78). -/
structure WireRow where
  mask : Byte
  pattern : Byte
  totalLen : Nat
  deriving DecidableEq, Repr

/-- The thirteen `WIRE` rows of spec/opcode_table.json, in its order. -/
def wireRows : List WireRow :=
  [⟨0x80#8, 0x00#8, 1⟩, ⟨0xC0#8, 0x80#8, 1⟩, ⟨0xE0#8, 0xC0#8, 1⟩, ⟨0xF0#8, 0xE0#8, 1⟩, ⟨0xF8#8, 0xF0#8, 1⟩,
   ⟨0xFF#8, 0xF8#8, 2⟩, ⟨0xFF#8, 0xF9#8, 3⟩, ⟨0xFF#8, 0xFA#8, 4⟩, ⟨0xFF#8, 0xFB#8, 5⟩, ⟨0xFF#8, 0xFC#8, 6⟩,
   ⟨0xFF#8, 0xFD#8, 7⟩, ⟨0xFF#8, 0xFE#8, 8⟩, ⟨0xFF#8, 0xFF#8, 9⟩]

/-- A header byte matches a row. -/
def WireRow.matchesByte (r : WireRow) (h : Byte) : Bool := h &&& r.mask == r.pattern

end Sys2Proof
end

