-- ==== Sys2Proof/Machine/State.lean ====
section
/-!
DEFINITION. Sys2Proof/Machine/State.lean: the state a model carries (10_state.md R28), the request and response ports
(R31, R32), and the state after reset (R33). The block holds no register, program counter, flag or mode (R20 to R25), so
none is here. A byte space is a finite byte sequence (20_memory.md R40), and a list of bytes is its canonical form: equal
spaces are equal data, and byte `i` of a space is `space[i]?`.
-/

namespace Sys2Proof.Machine

/-- The error statuses of R150, codes 1 to 6. -/
inductive Error where
  /-- ERR_DOMAIN, code 1 (R151). -/
  | domain
  /-- ERR_TRUNCATED, code 2 (R152). -/
  | truncated
  /-- ERR_NONCANONICAL, code 3 (R153). -/
  | noncanonical
  /-- ERR_OVERFLOW, code 4 (R154). -/
  | overflow
  /-- ERR_NO_HEADER, code 5 (R155). -/
  | noHeader
  /-- ERR_ILLEGAL_OP, code 6 (R156). -/
  | illegalOp
  deriving DecidableEq, Repr

/-- A response (R32, R73). A field that is not returned holds no value and is absent (R74). -/
inductive Response where
  /-- `return OK(count = …)`, and for a decode `value = …` too. -/
  | ok (count : Count) (value : Option Value)
  /-- `raise E`: the status and nothing else (R159, R160). -/
  | error (e : Error)
  deriving DecidableEq, Repr

/-- One access to a byte space, as 20_memory.md R54 lists them. -/
inductive Access where
  /-- `MemRead(BUF:index, n)`. -/
  | memRead (index n : Nat)
  /-- `SrcRead(n)`. -/
  | srcRead (n : Nat)
  /-- `SinkAppend(bytes)`. -/
  | sinkAppend (bytes : List Byte)
  /-- `StreamWrite(bytes)`: one write event (R48). -/
  | streamWrite (bytes : List Byte)
  deriving DecidableEq, Repr

/-- What the environment does next, between transactions (R27, R29). -/
inductive Input where
  /-- Present a request word on the request port (R70). -/
  | request (w : RequestWord)
  /-- Fill `BUF`, or bind another buffer: from now on `BUF` is these bytes (R27, R43). -/
  | bindBuf (bytes : List Byte)
  /-- Drain `SINK`, or bind another sink (R27, R43). -/
  | bindSink (bytes : List Byte)
  /-- Drain `SSINK`, or bind another stream sink (R27, R43). -/
  | bindSsink (bytes : List Byte)
  /-- Fill `SRC`, or bind another source (R27, R43). -/
  | bindSrc (bytes : List Byte)
  /-- Reset the block between transactions (R180). -/
  | reset
  deriving DecidableEq, Repr

/-- Why the machine stops with a fault: never. The block has no trap; an error is the status of a response, and the
machine goes on (60_exceptions.md R160, R162). So there is no constructor, and no one raises one. -/
inductive Fault where
  deriving DecidableEq, Repr

/-- Why a step has no meaning. -/
inductive Refusal where
  /-- Raised only by an arm of `exec` whose instruction has no meaning yet; there is none. Safe. -/
  | notModelled (mnemonic : String)
  /-- Raised by DECB, and by a wire form handed a body longer than its header announces: the core called outside its
  contract, to which the spec gives no meaning (`refuse`, R110, 93_implementation_defined.md U1). No request reaches it.
  Safe: nothing is claimed about such a call. -/
  | outsideCoreContract
  deriving DecidableEq, Repr

/-- The machine: one instance of the block and the byte spaces bound to it. -/
structure State where
  /-- `BUF`, the input buffer; index 0 is where DEC starts (R42, R44). -/
  buf : List Byte
  /-- `SINK`, the buffer sink; bytes are appended at its end (R46). -/
  sink : List Byte
  /-- `SSINK`, the stream sink (R48). -/
  ssink : List Byte
  /-- `SRC`, the unread remainder of the stream; its front is the cursor (R22, R50, R51). -/
  src : List Byte
  /-- The request port and the environment's other moves, still to come, the next one first (R27, R31). -/
  inputs : List Input
  /-- The response port: the response of the last transaction since reset (R32, R33). -/
  response : Option Response
  /-- The responses returned so far, oldest first (R192). -/
  responses : List Response
  /-- The accesses to byte spaces performed so far, oldest first (R26, R54). -/
  accesses : List Access
  deriving DecidableEq, Repr

/-- The machine right after reset (R33): nothing presented, no response on the port, none returned. The byte spaces are
the environment's and are not reset by the block; the model takes them empty (DESIGN CHOICE, log 1, unsafe). -/
def State.reset : State where
  buf := []
  sink := []
  ssink := []
  src := []
  inputs := []
  response := none
  responses := []
  accesses := []

end Sys2Proof.Machine
end

