-- ==== Sys2Proof/Machine/Operands.lean ====
section
/-!
DEFINITION. Sys2Proof/Machine/Operands.lean: the numbers the operations work on. Integers are unbounded naturals and are
narrowed only where a result is stored (00_scope.md R8): big-endian conversion (R10), the size of a Value
(40_size_unit.md R90), and the encoding function `enc` (41_encoder.md R102).
-/

namespace Sys2Proof.Machine

/-- `be(s)`: the number a byte sequence denotes when read most significant byte first (R10). -/
def be (s : List Byte) : Nat := s.foldl (fun acc b => 256 * acc + b.toNat) 0

/-- `bytes_be(x, n)`: the `n` bytes of `x`, most significant first; used with `x < 256^n` (R10). -/
def bytesBe (x : Nat) (n : Nat) : List Byte :=
  match n with
  | 0 => []
  | k + 1 => bytesBe (x / 256) k ++ [BitVec.ofNat 8 x]

/-- `SIZE(v)`: the length of the canonical form, by the thresholds of R90. -/
def sizeOfValue (v : Nat) : Nat :=
  if v < Config.base then 1
  else if v ≤ Config.base + 0xFF then 2
  else if v ≤ Config.base + 0xFFFF then 3
  else if v ≤ Config.base + 0xFFFFFF then 4
  else if v ≤ Config.base + 0xFFFFFFFF then 5
  else if v ≤ Config.base + 0xFFFFFFFFFF then 6
  else if v ≤ Config.base + 0xFFFFFFFFFFFF then 7
  else if v ≤ Config.base + 0xFFFFFFFFFFFFFF then 8
  else 9

/-- The header byte of a multi-byte form of `n` bytes: BASE + (n − 2) (R102). -/
def headerOfSize (n : Nat) : Byte := BitVec.ofNat 8 (Config.base + (n - 2))

/-- The body of the form of `v`, for `v ≥ BASE`: `bytes_be(v − BASE, n − 1)` (R65, R102). -/
def bodyOfValue (v : Nat) : List Byte := bytesBe (v - Config.base) (sizeOfValue v - 1)

/-- `enc(v)`: the canonical encoded form of a Value (R102). -/
def encForm (v : Value) : List Byte :=
  if v.toNat < Config.base then [BitVec.ofNat 8 v.toNat]
  else headerOfSize (sizeOfValue v.toNat) :: bodyOfValue v.toNat

end Sys2Proof.Machine
end

