-- ==== Sys2Proof/Machine/Flags.lean ====
section
/-!
DEFINITION. Sys2Proof/Machine/Flags.lean: the block has no flag (10_state.md R23); the flag-like value is the status of a
response. Here are the status codes (60_exceptions.md R150), the three checks of the decoder core in their order
(42_decoder.md R110, R157), the decoding function `dec` (R113), and the response word (30_encoding.md R73, R74).
-/

namespace Sys2Proof.Machine

/-- The status code of an error (R150). -/
def errorCode (e : Error) : BitVec 3 :=
  match e with
  | .domain => 1#3
  | .truncated => 2#3
  | .noncanonical => 3#3
  | .overflow => 4#3
  | .noHeader => 5#3
  | .illegalOp => 6#3

/-- The `status` field of a response: 0 for OK, else the error's code (R150). -/
def statusCode (r : Response) : BitVec 3 :=
  match r with
  | .ok _ _ => 0#3
  | .error e => errorCode e

/-- Check 1 of the core fails: the body has not the announced length (R110, R152). -/
def lengthCheckFails (expectedSize : Nat) (body : List Byte) : Bool := body.length != expectedSize - 1

/-- Check 2 fails: more than one byte and a leading zero (R110, R153). -/
def canonicalCheckFails (body : List Byte) : Bool := decide (1 < body.length) && body.head? == some 0x00#8

/-- Check 3 fails: the exact sum exceeds 2^64 − 1; it is never reduced modulo 2^64 (R110, R132, R154). -/
def rangeCheckFails (body : List Byte) : Bool := decide (Config.valueMax < be body + Config.base)

/-- What the core answers inside its contract: the first failing check's error, else the Value and the size (R110). -/
def coreResponse (expectedSize : Nat) (body : List Byte) : Response :=
  if lengthCheckFails expectedSize body then .error .truncated
  else if canonicalCheckFails body then .error .noncanonical
  else if rangeCheckFails body then .error .overflow
  else .ok (BitVec.ofNat 4 expectedSize) (some (BitVec.ofNat 64 (be body + Config.base)))

/-- `dec(s)`: the result of decoding the start of a byte sequence (R113). DEC and DECS are written from their own
pseudocode; that they answer `dec` is proved in Laws. -/
def decForm (s : List Byte) : Response :=
  match s with
  | [] => .error .noHeader
  | h :: rest =>
    if h.toNat < Config.base then .ok 1#4 (some (BitVec.ofNat 64 h.toNat))
    else coreResponse (formLength h.toNat) (rest.take (formLength h.toNat - 1))

/-- A response word carries a response (R73): the status, and each field that is returned. The bits of a field that is
not returned may be anything (R74). -/
def carries (w : ResponseWord) (r : Response) : Bool :=
  w.extractLsb' 68 3 == statusCode r &&
  match r with
  | .ok count none => w.extractLsb' 64 4 == count
  | .ok count (some value) => w.extractLsb' 64 4 == count && w.extractLsb' 0 64 == value
  | .error _ => true

end Sys2Proof.Machine
end

