-- ==== Sys2Proof/Machine/Ops.lean ====
section
/-!
DEFINITION. Sys2Proof/Machine/Ops.lean: the named operations over the byte spaces and the ports: the primitives of
00_scope.md R11 with the contracts of 20_memory.md R44 to R51, and how a transaction ends (60_exceptions.md R160). The
block has no register and no trap: an error response is the whole of what other machines do when they take an exception.
-/

namespace Sys2Proof.Machine

/-- Adds one access to the record, in the order of the pseudocode (R26, R54). -/
def record (s : State) (a : Access) : State :=
  { s with accesses := s.accesses ++ [a] }

/-- The bytes `space[i..i+n)`, clipped to the space (R9, R44). -/
def slice (space : List Byte) (i n : Nat) : List Byte := (space.drop i).take n

/-- `MemRead(BUF:i, n)`: no side effect on any space, never faults; a short result means that fewer bytes are there
(R44). -/
def memRead (s : State) (i n : Nat) : List Byte × State :=
  (slice s.buf i n, record s (.memRead i n))

/-- `SrcRead(n)`: the first `n` bytes of `SRC`, or all that are left, which are consumed (R50). -/
def srcRead (s : State) (n : Nat) : List Byte × State :=
  (s.src.take n, record { s with src := s.src.drop n } (.srcRead n))

/-- `SinkAppend(bytes)`: the sink always accepts, and keeps what it has in place (R46). -/
def sinkAppend (s : State) (bytes : List Byte) : State :=
  record { s with sink := s.sink ++ bytes } (.sinkAppend bytes)

/-- `StreamWrite(bytes)`: one write event that carries all the bytes (R48). -/
def streamWrite (s : State) (bytes : List Byte) : State :=
  record { s with ssink := s.ssink ++ bytes } (.streamWrite bytes)

/-- Puts the transaction's one response on the response port and among the responses returned (R32, R160, R192). -/
def respond (s : State) (r : Response) : State :=
  { s with response := some r, responses := s.responses ++ [r] }

/-- Ends the transaction with a response; the machine goes on (R160, R162). -/
def answer (s : State) (r : Response) : Host.Outcome State Fault Refusal := .next (respond s r)

/-- `raise E`: the transaction ends at once with the status and no result field; effects performed before it stand
(R11, R160). -/
def raiseError (s : State) (e : Error) : Host.Outcome State Fault Refusal := answer s (.error e)

/-- `return OK(count = n)` (R11, R73). The count is 1 to 9 and is carried in 4 bits (R130). -/
def returnCount (s : State) (n : Nat) : Host.Outcome State Fault Refusal :=
  answer s (.ok (BitVec.ofNat 4 n) none)

/-- `return OK(value = v, count = n)` (R11, R73). -/
def returnDecoded (s : State) (v n : Nat) : Host.Outcome State Fault Refusal :=
  answer s (.ok (BitVec.ofNat 4 n) (some (BitVec.ofNat 64 v)))

end Sys2Proof.Machine
end

