-- ==== Sys2Proof/Machine/Encoder.lean ====
section
/-!
DEFINITION. Sys2Proof/Machine/Encoder.lean: the encoder, `variable_length_int_encoder` (41_encoder.md).
-/

namespace Sys2Proof.Machine

/-- ENC (R100): one append of a single-byte form; else the header is appended and then the body (R47). -/
def execEnc (v : Value) (s : State) : Host.Outcome State Fault Refusal :=
  if v.toNat < Config.base then
    returnCount (sinkAppend s [BitVec.ofNat 8 v.toNat]) 1
  else
    let n := sizeOfValue v.toNat
    returnCount (sinkAppend (sinkAppend s [headerOfSize n]) (bodyOfValue v.toNat)) n

/-- ENCS (R101): the whole form is built first and written in one event (R48). -/
def execEncs (v : Value) (s : State) : Host.Outcome State Fault Refusal :=
  let tmp := encForm v
  returnCount (streamWrite s tmp) tmp.length

end Sys2Proof.Machine
end

