-- ==== Sys2Proof/Machine/Illegal.lean ====
section
/-!
DEFINITION. Sys2Proof/Machine/Illegal.lean: the illegal select codes (30_encoding.md R75, 60_exceptions.md R156).
-/

namespace Sys2Proof.Machine

/-- Select code 6 (R75): no access to any byte space, ERR_ILLEGAL_OP, the operand ignored. -/
def execIllegal6 (s : State) : Host.Outcome State Fault Refusal := raiseError s .illegalOp

/-- Select code 7 (R75): the same answer as code 6. -/
def execIllegal7 (s : State) : Host.Outcome State Fault Refusal := raiseError s .illegalOp

end Sys2Proof.Machine
end

