-- ==== Sys2Proof/Machine/SizeUnit.lean ====
section
/-!
DEFINITION. Sys2Proof/Machine/SizeUnit.lean: the size unit, `ilint_size_unit` (40_size_unit.md).
-/

namespace Sys2Proof.Machine

/-- SIZE (R90): the length of the canonical form of the Value; never an error, no effect. -/
def execSize (v : Value) (s : State) : Host.Outcome State Fault Refusal :=
  returnCount s (sizeOfValue v.toNat)

/-- HSIZE (R91): the whole operand is the header, so the upper 56 bits are checked; then the length it announces. -/
def execHsize (header : Value) (s : State) : Host.Outcome State Fault Refusal :=
  if 255 < header.toNat then raiseError s .domain
  else returnCount s (formLength header.toNat)

end Sys2Proof.Machine
end

