-- ==== Sys2Proof/Machine/Decoder.lean ====
section
/-!
DEFINITION. Sys2Proof/Machine/Decoder.lean: the decoder, `variable_length_int_decoder` (42_decoder.md): the core DECB and
the two faces of its front end.
-/

namespace Sys2Proof.Machine

/-- The core's answer as the answer of the transaction that called it (R110, R162), given inside the contract; outside it
the call has no meaning (`refuse`, U1). -/
def coreCall (header : Byte) (expectedSize : Nat) (body : List Byte) (s : State) :
    Host.Outcome State Fault Refusal :=
  if CoreContract header expectedSize body then answer s (coreResponse expectedSize body)
  else .refused .outsideCoreContract

/-- DECB (R110): reads no byte space; the three checks, then the Value. -/
def execDecb (header : Byte) (expectedSize : Nat) (body : List Byte) (s : State) :
    Host.Outcome State Fault Refusal :=
  coreCall header expectedSize body s

/-- DEC (R111): reads `BUF` from index 0 and leaves it as it is. -/
def execDec (s : State) : Host.Outcome State Fault Refusal :=
  match memRead s 0 1 with
  | ([], s1) => raiseError s1 .noHeader
  | (h :: _, s1) =>
    if h.toNat < Config.base then returnDecoded s1 h.toNat 1
    else
      let n := formLength h.toNat
      let (body, s2) := memRead s1 1 (n - 1)
      coreCall h n body s2

/-- DECS (R112): the same from the front of `SRC`; what the two reads return is consumed, also when it then fails. -/
def execDecs (s : State) : Host.Outcome State Fault Refusal :=
  match srcRead s 1 with
  | ([], s1) => raiseError s1 .noHeader
  | (h :: _, s1) =>
    if h.toNat < Config.base then returnDecoded s1 h.toNat 1
    else
      let n := formLength h.toNat
      let (body, s2) := srcRead s1 (n - 1)
      coreCall h n body s2

end Sys2Proof.Machine
end

