-- ==== Sys2Proof/Machine/Wire.lean ====
section
/-!
DEFINITION. Sys2Proof/Machine/Wire.lean: what the decoder answers on an encoded form of each class of header byte
(30_encoding.md R61 to R63, R78). The form is handed over complete, as the front end has it after its reads, so no byte
space is reached here; DEC and DECS are the reads and then this (DESIGN CHOICE, log 8).
-/

namespace Sys2Proof.Machine

/-- A single-byte form is complete and valid: the Value is the header byte, the count is 1 (R61, R111). -/
def singleByteForm (h : Byte) (s : State) : Host.Outcome State Fault Refusal :=
  returnDecoded s h.toNat 1

/-- A multi-byte form: its header fixes the announced length and the core does the rest (R62, R64, R110). -/
def multiByteForm (h : Byte) (body : List Byte) (s : State) : Host.Outcome State Fault Refusal :=
  coreCall h (formLength h.toNat) body s

/-- ILINT1_00 (R61): the header byte 0x00 to 0x7F is the Value. -/
def execIlint1_00 (v : BitVec 7) (s : State) : Host.Outcome State Fault Refusal :=
  singleByteForm (0b0#1 ++ v) s

/-- ILINT1_80 (R61): the header byte 0x80 to 0xBF is the Value. -/
def execIlint1_80 (v : BitVec 6) (s : State) : Host.Outcome State Fault Refusal :=
  singleByteForm (0b10#2 ++ v) s

/-- ILINT1_C0 (R61): the header byte 0xC0 to 0xDF is the Value. -/
def execIlint1_C0 (v : BitVec 5) (s : State) : Host.Outcome State Fault Refusal :=
  singleByteForm (0b110#3 ++ v) s

/-- ILINT1_E0 (R61): the header byte 0xE0 to 0xEF is the Value. -/
def execIlint1_E0 (v : BitVec 4) (s : State) : Host.Outcome State Fault Refusal :=
  singleByteForm (0b1110#4 ++ v) s

/-- ILINT1_F0 (R61): the header byte 0xF0 to 0xF7 is the Value. -/
def execIlint1_F0 (v : BitVec 3) (s : State) : Host.Outcome State Fault Refusal :=
  singleByteForm (0b11110#5 ++ v) s

/-- ILINT2 (R62): header 0xF8, then 1 body byte. -/
def execIlint2 (body : List Byte) (s : State) : Host.Outcome State Fault Refusal :=
  multiByteForm 0xF8#8 body s

/-- ILINT3 (R62): header 0xF9, then 2 body bytes. -/
def execIlint3 (body : List Byte) (s : State) : Host.Outcome State Fault Refusal :=
  multiByteForm 0xF9#8 body s

/-- ILINT4 (R62): header 0xFA, then 3 body bytes. -/
def execIlint4 (body : List Byte) (s : State) : Host.Outcome State Fault Refusal :=
  multiByteForm 0xFA#8 body s

/-- ILINT5 (R62): header 0xFB, then 4 body bytes. -/
def execIlint5 (body : List Byte) (s : State) : Host.Outcome State Fault Refusal :=
  multiByteForm 0xFB#8 body s

/-- ILINT6 (R62): header 0xFC, then 5 body bytes. -/
def execIlint6 (body : List Byte) (s : State) : Host.Outcome State Fault Refusal :=
  multiByteForm 0xFC#8 body s

/-- ILINT7 (R62): header 0xFD, then 6 body bytes. -/
def execIlint7 (body : List Byte) (s : State) : Host.Outcome State Fault Refusal :=
  multiByteForm 0xFD#8 body s

/-- ILINT8 (R62): header 0xFE, then 7 body bytes. -/
def execIlint8 (body : List Byte) (s : State) : Host.Outcome State Fault Refusal :=
  multiByteForm 0xFE#8 body s

/-- ILINT9 (R62): header 0xFF, then 8 body bytes. -/
def execIlint9 (body : List Byte) (s : State) : Host.Outcome State Fault Refusal :=
  multiByteForm 0xFF#8 body s

end Sys2Proof.Machine
end

