-- ==== Sys2Proof/Machine/Dispatch.lean ====
section
/-!
DEFINITION. Sys2Proof/Machine/Dispatch.lean: one arm per constructor of `Instr`, in the opcode table's order.
-/

namespace Sys2Proof.Machine

def exec (i : Instr) (s : State) : Host.Outcome State Fault Refusal :=
  match i with
  | .size v => Sys2Proof.Machine.execSize v s
  | .hsize h => Sys2Proof.Machine.execHsize h s
  | .enc v => Sys2Proof.Machine.execEnc v s
  | .encs v => Sys2Proof.Machine.execEncs v s
  -- the operand bits of DEC, DECS and the illegal codes are ignored (R72, R75)
  | .dec _ => Sys2Proof.Machine.execDec s
  | .decs _ => Sys2Proof.Machine.execDecs s
  | .illegal6 _ => Sys2Proof.Machine.execIllegal6 s
  | .illegal7 _ => Sys2Proof.Machine.execIllegal7 s
  | .decb header expectedSize body => Sys2Proof.Machine.execDecb header expectedSize body s
  | .ilint1_00 v => Sys2Proof.Machine.execIlint1_00 v s
  | .ilint1_80 v => Sys2Proof.Machine.execIlint1_80 v s
  | .ilint1_C0 v => Sys2Proof.Machine.execIlint1_C0 v s
  | .ilint1_E0 v => Sys2Proof.Machine.execIlint1_E0 v s
  | .ilint1_F0 v => Sys2Proof.Machine.execIlint1_F0 v s
  | .ilint2 body => Sys2Proof.Machine.execIlint2 body s
  | .ilint3 body => Sys2Proof.Machine.execIlint3 body s
  | .ilint4 body => Sys2Proof.Machine.execIlint4 body s
  | .ilint5 body => Sys2Proof.Machine.execIlint5 body s
  | .ilint6 body => Sys2Proof.Machine.execIlint6 body s
  | .ilint7 body => Sys2Proof.Machine.execIlint7 body s
  | .ilint8 body => Sys2Proof.Machine.execIlint8 body s
  | .ilint9 body => Sys2Proof.Machine.execIlint9 body s

end Sys2Proof.Machine
end

