-- ==== Sys2Proof/Machine/Serve.lean ====
section
/-!
DEFINITION. Sys2Proof/Machine/Serve.lean: what one step does with the environment's next move (10_state.md R26, R27), and
how an instruction is placed where the next step takes it.
-/

namespace Sys2Proof.Machine

/-- A move of the environment, the move itself being already taken off the list. A request is one transaction: its word
is decoded and the instruction runs to its response (R26). The other moves happen between transactions: the environment
owns the byte spaces (R27, R43), and a reset changes no byte space and leaves no value on the response port (R33, R180). -/
def serve (m : Input) (s : State) : Host.Outcome State Fault Refusal :=
  match m with
  | .request w => exec (decodeRequest w) s
  | .bindBuf bytes => .next { s with buf := bytes }
  | .bindSink bytes => .next { s with sink := bytes }
  | .bindSsink bytes => .next { s with ssink := bytes }
  | .bindSrc bytes => .next { s with src := bytes }
  | .reset => .next { s with response := none }

/-- One step: the environment's next move. With none to come the block is idle: it never acts on its own (R27, R164). -/
def takeInput (s : State) : Host.Outcome State Fault Refusal :=
  match s.inputs with
  | [] => .next s
  | m :: rest => serve m { s with inputs := rest }

/-- The request word of DECS with an operand of zeros (R70, R76). -/
def decsWord : RequestWord := requestWord 5#3 0#64

/-- Presents a word of the opcode table so that the next step runs it (log 9). A request word goes to the request port. A
wire form, and with it the core it drives, is met by the decoder in a stream: its bytes, followed by zero bytes, go to
the front of `SRC`, and a DECS is presented. -/
def placeWord (s : State) (nbits w : Nat) : State :=
  if nbits = 0 then
    { s with src := zeroExtendedForm 0xF8#8 ++ s.src, inputs := .request decsWord :: s.inputs }
  else if nbits = 8 then
    { s with src := zeroExtendedForm (BitVec.ofNat 8 w) ++ s.src, inputs := .request decsWord :: s.inputs }
  else
    { s with inputs := .request (BitVec.ofNat 67 w) :: s.inputs }

end Sys2Proof.Machine
end

