-- ==== Sys2Proof/Safety.lean ====
section
/-!
DEFINITION. Sys2Proof/Safety.lean: the terms claims are stated in, written from the spec's rules and not from the meanings:
valid encoded forms and the classes of rejected input (30_encoding.md R66, R67), the size bands (40_size_unit.md R90), which
operation reaches which byte space (20_memory.md R40), and what a safe run keeps.
-/

namespace Sys2Proof.Safety

open Sys2Proof.Machine

/-! ### Encoded forms -/

/-- The first byte of a sequence as a number; 0 where there is none. -/
def headNat (f : List Byte) : Nat := (f.headD 0x00#8).toNat

/-- A valid encoded form, as R66 lists the two cases. -/
abbrev ValidForm (f : List Byte) : Prop :=
  (f.length = 1 ∧ headNat f < 0xF8) ∨
  (0xF8 ≤ headNat f ∧ f.length = headNat f - 0xF8 + 2 ∧ (f.length = 2 ∨ f[1]? ≠ some 0x00#8) ∧
    be f.tail + 0xF8 ≤ 2 ^ 64 - 1)

/-- The number a form represents (R61, R62). -/
def formValue (f : List Byte) : Nat :=
  if headNat f < 0xF8 then headNat f else be f.tail + 0xF8

/-- A form that is complete, whether or not it is valid: as long as its header announces (R64). -/
abbrev CompleteForm (f : List Byte) : Prop :=
  (f.length = 1 ∧ headNat f < 0xF8) ∨ (0xF8 ≤ headNat f ∧ f.length = headNat f - 0xF8 + 2)

/-- A sequence that begins with a valid form. -/
def BeginsValid (s : List Byte) : Prop := ∃ form rest, s = form ++ rest ∧ ValidForm form

/-- The class "empty" of R67. -/
abbrev EmptyInput (s : List Byte) : Prop := s.length = 0

/-- The class "truncated" of R67. -/
abbrev TruncatedInput (s : List Byte) : Prop := 0xF8 ≤ headNat s ∧ s.length < headNat s - 0xF8 + 2

/-- The class "non-canonical" of R67. -/
abbrev NoncanonicalInput (s : List Byte) : Prop :=
  ¬ TruncatedInput s ∧ 0xF9 ≤ headNat s ∧ s[1]? = some 0x00#8

/-- The class "overflow" of R67. -/
abbrev OverflowInput (s : List Byte) : Prop :=
  ¬ TruncatedInput s ∧ headNat s = 0xFF ∧ 0xFFFFFFFFFFFFFF07 < be (s.tail.take 8)

/-! ### Sizes -/

/-- The bands of R90: the count, the smallest and the largest Value. -/
def sizeBands : List (Nat × Nat × Nat) :=
  [(1, 0x0, 0xF7), (2, 0xF8, 0x1F7), (3, 0x1F8, 0x100F7), (4, 0x100F8, 0x10000F7), (5, 0x10000F8, 0x1000000F7),
   (6, 0x1000000F8, 0x100000000F7), (7, 0x100000000F8, 0x10000000000F7),
   (8, 0x10000000000F8, 0x1000000000000F7), (9, 0x1000000000000F8, 0xFFFFFFFFFFFFFFFF)]

/-- `v` lies in the band of forms of `n` bytes. -/
abbrev InBand (n v : Nat) : Prop := ∃ b ∈ sizeBands, b.1 = n ∧ b.2.1 ≤ v ∧ v ≤ b.2.2

/-! ### Transactions -/

/-- The state in which a transaction that began in `s` has delivered `r` and done nothing else (R160). -/
abbrev answered (s : State) (r : Response) : State :=
  { s with response := some r, responses := s.responses ++ [r] }

/-- `s` after some more accesses that change no byte space. -/
abbrev accessed (s : State) (as : List Access) : State := { s with accesses := s.accesses ++ as }

/-- The reads of DEC on `b`, in order (R54): one byte, and for a multi-byte header the body it announces. -/
def bufReads (b : List Byte) : List Access :=
  if headNat b < 0xF8 then [.memRead 0 1] else [.memRead 0 1, .memRead 1 (headNat b - 0xF8 + 1)]

/-- The reads of DECS on `b`, in order (R54). -/
def srcReads (b : List Byte) : List Access :=
  if headNat b < 0xF8 then [.srcRead 1] else [.srcRead 1, .srcRead (headNat b - 0xF8 + 1)]

/-- The appends of ENC for a form, in order (R47, R54): the one byte, or the header and then the body. -/
def sinkAppends (form : List Byte) : List Access :=
  if form.length = 1 then [.sinkAppend form] else [.sinkAppend (form.take 1), .sinkAppend (form.drop 1)]

/-- The response of a decode that succeeded on a form. -/
def decoded (form : List Byte) : Response :=
  .ok (BitVec.ofNat 4 form.length) (some (BitVec.ofNat 64 (formValue form)))

/-- The status field a step left on the response port. -/
def portStatus (s : State) : Option (BitVec 3) := s.response.map statusCode

/-! ### Byte spaces -/

/-- The four byte spaces (R40). -/
inductive Space where
  | buf
  | sink
  | ssink
  | src
  deriving DecidableEq, Repr

/-- The bytes of a space. -/
def contents (p : Space) (s : State) : List Byte :=
  match p with
  | .buf => s.buf
  | .sink => s.sink
  | .ssink => s.ssink
  | .src => s.src

/-- The space an instruction reaches, by the table of R40; the illegal codes reach none (R75), and a wire form or a core
call works on values handed to it. -/
def reaches (i : Instr) : Option Space :=
  match i with
  | .dec _ => some .buf
  | .enc _ => some .sink
  | .encs _ => some .ssink
  | .decs _ => some .src
  | .size _ | .hsize _ | .illegal6 _ | .illegal7 _ | .decb _ _ _ => none
  | .ilint1_00 _ | .ilint1_80 _ | .ilint1_C0 _ | .ilint1_E0 _ | .ilint1_F0 _ => none
  | .ilint2 _ | .ilint3 _ | .ilint4 _ | .ilint5 _ | .ilint6 _ | .ilint7 _ | .ilint8 _ | .ilint9 _ => none

/-- The write events among some accesses, oldest first (R48). -/
def writeEvents (as : List Access) : List (List Byte) :=
  as.filterMap fun a =>
    match a with
    | .streamWrite bytes => some bytes
    | .memRead _ _ | .srcRead _ | .sinkAppend _ => none

/-- What a reader may see of a stream sink that held `before`, while the block issues `events`, when the sink makes each
write event visible at once (R49, R187): whole events only. -/
def SeesAtomic (before : List Byte) (events : List (List Byte)) (view : List Byte) : Prop :=
  ∃ k, k ≤ events.length ∧ view = before ++ (events.take k).flatten

/-! ### What a safe run keeps -/

/-- Every write event on `SSINK` carries one whole valid form (R48, R49). -/
abbrev WriteEventsWhole (s : State) : Prop := ∀ f ∈ writeEvents s.accesses, ValidForm f

/-- A response is one that the block may return: a count of 1 to 9 (R32, R130), or an error. -/
def ResponseLegal (r : Response) : Bool :=
  match r with
  | .ok count _ => decide (1 ≤ count.toNat) && decide (count.toNat ≤ 9)
  | .error _ => true

/-- Every response returned is legal, and the port holds nothing or the last response returned (R32, R33). -/
abbrev ResponsesSound (s : State) : Prop :=
  (∀ r ∈ s.responses, ResponseLegal r = true) ∧ (s.response = none ∨ s.response = s.responses.getLast?)

/-- What every step of a run keeps. -/
abbrev Safe (s : State) : Prop := WriteEventsWhole s ∧ ResponsesSound s

end Sys2Proof.Safety
end

