-- ==== Sys2Proof/Certificates/Slice0/Obligations.lean ====
section
/-!
DEFINITION. Sys2Proof/Certificates/Slice0/Obligations.lean: the statements for the provers, from the spec's numbered rules.
Each docstring names the rule it formalises, or says that it rests on a choice of the model.
-/

section

open Sys2Proof Sys2Proof.Machine Sys2Proof.Safety

/-! ### Reset and the environment -/

/-- Right after reset no request is presented and the response port carries no value (10_state.md R33, the rows of the two
ports). That no response counts as returned and no access as performed is the model's choice (log 4, log 5). -/
def Obligations.ResetPortsAreEmpty : Prop :=
  State.reset.inputs = [] ∧ State.reset.response = none ∧ State.reset.responses = [] ∧ State.reset.accesses = []

/-- The invariant that StepKeepsWholeWriteEvents and StepKeepsResponsesSound keep holds at reset. -/
def Obligations.SafeHoldsAtReset : Prop := Safe State.reset

/-- R180: a reset between transactions touches no byte space and leaves the response port without a value (R33); and no
transaction can tell that it happened, so the next one behaves as any other (the input reset: log 2, log 16). -/
def Obligations.ResetChangesNothingARuleReads : Prop :=
  (∀ s rest, s.inputs = .reset :: rest → step s = .next { s with inputs := rest, response := none }) ∧
  ∀ i s, exec i { s with response := none } = exec i s

/-- The block never acts on its own (R27): with nothing presented, a step changes nothing (log 3). -/
def Obligations.IdleWithoutRequest : Prop := ∀ s, s.inputs = [] → step s = .next s

/-- Filling, draining or binding a byte space changes that space and nothing else (log 2). -/
def Obligations.EnvironmentMovesChangeOneSpace : Prop :=
  ∀ s bytes rest,
    (s.inputs = .bindBuf bytes :: rest → step s = .next { s with inputs := rest, buf := bytes }) ∧
    (s.inputs = .bindSink bytes :: rest → step s = .next { s with inputs := rest, sink := bytes }) ∧
    (s.inputs = .bindSsink bytes :: rest → step s = .next { s with inputs := rest, ssink := bytes }) ∧
    (s.inputs = .bindSrc bytes :: rest → step s = .next { s with inputs := rest, src := bytes })

/-! ### The step -/

/-- A step with a request presented takes it off the port and runs the instruction its word decodes to. -/
def Obligations.StepRunsDecodedRequest : Prop :=
  ∀ s w rest, s.inputs = .request w :: rest → step s = exec (decodeRequest w) { s with inputs := rest }

/-- Every transaction ends (R191), after an error too (R162): no step faults or is refused. -/
def Obligations.StepAlwaysCompletes : Prop := ∀ s, ∃ t, step s = .next t

/-- Every well-formed instruction runs to a response, in every state and on every operand: ordinary data never ends a run
(R141, R162). -/
def Obligations.WellFormedInstructionsComplete : Prop := ∀ (i : Instr) s, i.WellFormed → ∃ t, exec i s = .next t

/-- One transaction gives one response, on the port and as the last one returned, and takes no further request
(R26, R160). -/
def Obligations.OneResponsePerTransaction : Prop :=
  ∀ i s t, exec i s = .next t →
    ∃ r, t.response = some r ∧ t.responses = s.responses ++ [r] ∧ t.inputs = s.inputs

/-- Every step keeps: each write event on `SSINK` is one whole valid encoded form (R48, R49). -/
def Obligations.StepKeepsWholeWriteEvents : Prop :=
  ∀ s t, WriteEventsWhole s → step s = .next t → WriteEventsWhole t

/-- Every step keeps: counts returned are 1 to 9, and the port holds nothing or the last response (R32, R33, R130). -/
def Obligations.StepKeepsResponsesSound : Prop :=
  ∀ s t, ResponsesSound s → step s = .next t → ResponsesSound t

/-- An opcode-table word placed by `withFetchWord` runs in the very next step: a request word as the request; a header
byte, and the core's row, as the form that a DECS meets at the front of `SRC` (the model's convention, log 9). DECS takes
that form and no more: the bytes placed after it, and then those already in `SRC`, stay. -/
def Obligations.PlacedWordRuns : Prop :=
  (∀ (s : State) (w : Nat), w < 2 ^ 8 → ∃ i, decodeTableWord 8 w = some i ∧
    step (s.withFetchWord 8 w) = exec i (accessed
      { s with src := (zeroExtendedForm (BitVec.ofNat 8 w)).drop (formLength w) ++ s.src }
      (srcReads (zeroExtendedForm (BitVec.ofNat 8 w) ++ s.src)))) ∧
  (∀ s : State, ∃ i, decodeTableWord 0 0 = some i ∧
    step (s.withFetchWord 0 0) = exec i (accessed
      { s with src := (zeroExtendedForm 0xF8#8).drop (formLength 0xF8) ++ s.src }
      (srcReads (zeroExtendedForm 0xF8#8 ++ s.src)))) ∧
  ∀ (s : State) (nbits w : Nat), 67 ≤ nbits → nbits ≤ 72 → w < 2 ^ 67 →
    ∃ i, decodeTableWord nbits w = some i ∧ step (s.withFetchWord nbits w) = exec i s

/-! ### The size unit -/

/-- R90: the encoding; SIZE returns the length of the band the Value lies in and has no effect; a Value's form begins with
the header of its band; the result is monotone; and the equal form: 2 for BASE, else 2 plus the index of the most
significant non-zero byte of `v − BASE`. -/
def Obligations.SizeIsBandLength : Prop :=
  (∀ v, decodeRequest (0#3 ++ v) = .size v) ∧
  (∀ v s, ∃ n, InBand n v.toNat ∧ exec (.size v) s = .next (answered s (.ok (BitVec.ofNat 4 n) none))) ∧
  (∀ (v : Value) n, InBand n v.toNat → headNat (encForm v) = if n = 1 then v.toNat else 0xF8 + (n - 2)) ∧
  (∀ v w n m : Nat, InBand n v → InBand m w → v ≤ w → n ≤ m) ∧
  ∀ v k s, 0xF8 ≤ v.toNat → (v.toNat = 0xF8 ∧ k = 0 ∨ 256 ^ k ≤ v.toNat - 0xF8 ∧ v.toNat - 0xF8 < 256 ^ (k + 1)) →
    exec (.size v) s = .next (answered s (.ok (BitVec.ofNat 4 (2 + k)) none))

/-- R91: the encoding; ERR_DOMAIN above 255 (any of the upper 56 bits set), tested first; else 1 for a header whose top
five bits are not all ones, and the low three bits plus 2 for one whose are, which is header − BASE + 2. No effect. -/
def Obligations.HsizeIsAnnouncedLength : Prop :=
  (∀ h, decodeRequest (1#3 ++ h) = .hsize h) ∧
  ∀ h s, exec (.hsize h) s = .next (answered s (
    if h.extractLsb' 8 56 ≠ 0#56 then .error .domain
    else if h.extractLsb' 3 5 = 0b11111#5 then .ok ((h.extractLsb' 0 3).setWidth 4 + 2#4) none
    else .ok 1#4 none)) ∧
  (255 < h.toNat → exec (.hsize h) s = .next (answered s (.error .domain))) ∧
  (h.toNat < 0xF8 → exec (.hsize h) s = .next (answered s (.ok 1#4 none))) ∧
  (0xF8 ≤ h.toNat → h.toNat ≤ 255 →
    exec (.hsize h) s = .next (answered s (.ok (BitVec.ofNat 4 (h.toNat - 0xF8 + 2)) none)))

/-- R138: HSIZE of the first byte of `enc(v)` answers what SIZE of `v` answers. -/
def Obligations.HeaderAndSizeAgree : Prop :=
  ∀ v s, exec (.hsize (((encForm v).headD 0x00#8).setWidth 64)) s = exec (.size v) s

/-! ### The encoder -/

/-- R10: `be` reads most significant byte first; `bytes_be(x, n)` is the one sequence of `n` bytes that denotes `x`, and
its byte `i` is `(x div 256^(n−1−i)) mod 256`. -/
def Obligations.BigEndianConversion : Prop :=
  be [] = 0 ∧ (∀ s b, be (s ++ [b]) = 256 * be s + b.toNat) ∧
  ∀ x n, x < 256 ^ n →
    (bytesBe x n).length = n ∧ be (bytesBe x n) = x ∧
    (∀ s, s.length = n → be s = x → s = bytesBe x n) ∧
    ∀ i, i < n → (bytesBe x n)[i]? = some (BitVec.ofNat 8 (x / 256 ^ (n - 1 - i)))

/-- The properties of `enc` (41_encoder.md, the encoding function): it is a valid form of its Value, as long as SIZE
says, with a first body byte that is not zero from three bytes on. -/
def Obligations.EncFormIsValidFormOfItsValue : Prop :=
  ∀ v, ValidForm (encForm v) ∧ formValue (encForm v) = v.toNat ∧ InBand (encForm v).length v.toNat ∧
    (3 ≤ (encForm v).length → (encForm v)[1]? ≠ some 0x00#8)

/-- R100: ENC appends `enc(v)`, a single-byte form in one append, else the header and then the body, keeps what the sink
had, touches no other space, and returns the length that SIZE returns. -/
def Obligations.EncAppendsCanonicalForm : Prop :=
  (∀ v, decodeRequest (2#3 ++ v) = .enc v) ∧
  ∀ v s,
    exec (.enc v) s = .next (answered (accessed { s with sink := s.sink ++ encForm v } (sinkAppends (encForm v)))
      (.ok (BitVec.ofNat 4 (encForm v).length) none)) ∧
    exec (.size v) s = .next (answered s (.ok (BitVec.ofNat 4 (encForm v).length) none))

/-- R101: ENCS writes `enc(v)` to `SSINK` in exactly one write event, touches no other space, and returns the length that
SIZE returns. -/
def Obligations.EncsWritesFormInOneEvent : Prop :=
  (∀ v, decodeRequest (3#3 ++ v) = .encs v) ∧
  ∀ v s,
    exec (.encs v) s = .next (answered (accessed { s with ssink := s.ssink ++ encForm v } [.streamWrite (encForm v)])
      (.ok (BitVec.ofNat 4 (encForm v).length) none)) ∧
    exec (.size v) s = .next (answered s (.ok (BitVec.ofNat 4 (encForm v).length) none))

/-- R68: the form of 2^64 − 1 has the header 0xFF and a body that ends in 07; the body that the source prints, which ends
in F8, is in the overflow class. -/
def Obligations.LargestValueForm : Prop :=
  encForm 0xFFFFFFFFFFFFFFFF#64 =
    [0xFF#8, 0xFF#8, 0xFF#8, 0xFF#8, 0xFF#8, 0xFF#8, 0xFF#8, 0xFF#8, 0x07#8] ∧
  OverflowInput [0xFF#8, 0xFF#8, 0xFF#8, 0xFF#8, 0xFF#8, 0xFF#8, 0xFF#8, 0xFF#8, 0xF8#8] ∧
  decForm [0xFF#8, 0xFF#8, 0xFF#8, 0xFF#8, 0xFF#8, 0xFF#8, 0xFF#8, 0xFF#8, 0xF8#8] = .error .overflow

/-- The frame of the sinks, byte by byte: ENC stores its form at the end of `SINK` and ENCS at the end of `SSINK`; every
byte outside the stored ones reads as before (20_memory.md R46, R48). -/
def Obligations.SinkBytesStayInPlace : Prop :=
  ∀ v s t k,
    (exec (.enc v) s = .next t → (k < s.sink.length ∨ s.sink.length + (encForm v).length ≤ k) →
      t.sink[k]? = s.sink[k]?) ∧
    (exec (.encs v) s = .next t → (k < s.ssink.length ∨ s.ssink.length + (encForm v).length ≤ k) →
      t.ssink[k]? = s.ssink[k]?)

/-! ### The decoder -/

/-- R110: no request reaches DECB; inside its contract it makes the three checks in order and then returns
`be(body) + BASE`, exactly, with the announced size, reading no space; outside its contract it has no meaning. That a
core call run on its own puts its answer on the response port is the model's reading (log 7). -/
def Obligations.DecbChecksInOrder : Prop :=
  (∀ w h n body, decodeRequest w ≠ .decb h n body) ∧
  ∀ h n body s,
    (¬ CoreContract h n body → exec (.decb h n body) s = .refused .outsideCoreContract) ∧
    (CoreContract h n body →
      (body.length ≠ n - 1 → exec (.decb h n body) s = .next (answered s (.error .truncated))) ∧
      (body.length = n - 1 → 1 < body.length → body[0]? = some 0x00#8 →
        exec (.decb h n body) s = .next (answered s (.error .noncanonical))) ∧
      (body.length = n - 1 → ¬ (1 < body.length ∧ body[0]? = some 0x00#8) →
        (2 ^ 64 - 1 < be body + 0xF8 → exec (.decb h n body) s = .next (answered s (.error .overflow))) ∧
        (be body + 0xF8 ≤ 2 ^ 64 - 1 →
          exec (.decb h n body) s =
            .next (answered s (.ok (BitVec.ofNat 4 n) (some (BitVec.ofNat 64 (be body + 0xF8))))))))

/-- The front end calls the core inside its contract (70_reset_and_hazards.md R188, 42_decoder.md R110): on any bytes that
begin with a multi-byte header, too few of them included, DEC is its reads and then DECB on that header, the length it
announces and the announced bytes that follow, as far as they are there; and DECS is the same on what its reads took from
`SRC`. The three values are inside the core's contract. DECB run as an instruction of its own is the model's reading (log 7). -/
def Obligations.FrontEndKeepsCoreContract : Prop :=
  ∀ (h : Byte) (rest : List Byte) x s, 0xF8 ≤ h.toNat →
    CoreContract h (formLength h.toNat) (rest.take (formLength h.toNat - 1)) ∧
    (s.buf = h :: rest → exec (.dec x) s =
      exec (.decb h (formLength h.toNat) (rest.take (formLength h.toNat - 1))) (accessed s (bufReads s.buf))) ∧
    (s.src = h :: rest → exec (.decs x) s =
      exec (.decb h (formLength h.toNat) (rest.take (formLength h.toNat - 1)))
        (accessed { s with src := rest.drop (formLength h.toNat - 1) } (srcReads s.src)))

/-- The overflow check (43_codec_laws.md R132, 60_exceptions.md R154): it fails exactly above 0xFFFFFFFFFFFFFF07, and then
the header is 0xFF and the body has eight bytes, the first of which is not zero. -/
def Obligations.OverflowNeedsEightByteBody : Prop :=
  ∀ h n body s, CoreContract h n body →
    (exec (.decb h n body) s = .next (answered s (.error .overflow)) ↔
      body.length = n - 1 ∧ 0xFFFFFFFFFFFFFF07 < be body) ∧
    (exec (.decb h n body) s = .next (answered s (.error .overflow)) →
      h = 0xFF#8 ∧ body.length = 8 ∧ body[0]? ≠ some 0x00#8)

/-- R111: DEC reads one byte of `BUF`, and for a multi-byte header the announced body; it answers by the class of `BUF`,
and changes no space. A valid form at the start, whatever follows it, gives its length and its Value. -/
def Obligations.DecAnswersByClass : Prop :=
  (∀ x, decodeRequest (4#3 ++ x) = .dec x) ∧
  ∀ x s,
    (EmptyInput s.buf →
      exec (.dec x) s = .next (answered (accessed s [.memRead 0 1]) (.error .noHeader))) ∧
    (TruncatedInput s.buf →
      exec (.dec x) s = .next (answered (accessed s (bufReads s.buf)) (.error .truncated))) ∧
    (NoncanonicalInput s.buf →
      exec (.dec x) s = .next (answered (accessed s (bufReads s.buf)) (.error .noncanonical))) ∧
    (OverflowInput s.buf →
      exec (.dec x) s = .next (answered (accessed s (bufReads s.buf)) (.error .overflow))) ∧
    ∀ form rest, s.buf = form ++ rest → ValidForm form →
      exec (.dec x) s = .next (answered (accessed s (bufReads s.buf)) (decoded form))

/-- R112: DECS answers by the class of `SRC`, and consumes what its reads return: the form; nothing of an empty source;
everything that is left after a truncation; the whole malformed form after the other two errors. -/
def Obligations.DecsAnswersByClass : Prop :=
  (∀ x, decodeRequest (5#3 ++ x) = .decs x) ∧
  ∀ x s,
    (EmptyInput s.src →
      exec (.decs x) s = .next (answered (accessed { s with src := [] } [.srcRead 1]) (.error .noHeader))) ∧
    (TruncatedInput s.src →
      exec (.decs x) s = .next (answered (accessed { s with src := [] } (srcReads s.src)) (.error .truncated))) ∧
    (NoncanonicalInput s.src →
      exec (.decs x) s = .next (answered
        (accessed { s with src := s.src.drop (headNat s.src - 0xF8 + 2) } (srcReads s.src)) (.error .noncanonical))) ∧
    (OverflowInput s.src →
      exec (.decs x) s = .next (answered
        (accessed { s with src := s.src.drop (headNat s.src - 0xF8 + 2) } (srcReads s.src)) (.error .overflow))) ∧
    ∀ form rest, s.src = form ++ rest → ValidForm form →
      exec (.decs x) s = .next (answered (accessed { s with src := rest } (srcReads s.src)) (decoded form))

/-- R67: every byte sequence begins with a valid form or falls in exactly one class of the table, and decoding gives each
class its status and never a Value. -/
def Obligations.InputClassesPartition : Prop :=
  ∀ s : List Byte,
    (∃ c ∈ [EmptyInput s, TruncatedInput s, NoncanonicalInput s, OverflowInput s, BeginsValid s], c) ∧
    [EmptyInput s, TruncatedInput s, NoncanonicalInput s, OverflowInput s, BeginsValid s].Pairwise
      (fun c d => ¬ (c ∧ d)) ∧
    (EmptyInput s → decForm s = .error .noHeader) ∧ (TruncatedInput s → decForm s = .error .truncated) ∧
    (NoncanonicalInput s → decForm s = .error .noncanonical) ∧ (OverflowInput s → decForm s = .error .overflow) ∧
    (BeginsValid s → ∃ c v, decForm s = .ok c (some v))

/-- DEC and DECS answer the function `dec` of the bytes presented (R113, R111, R112). -/
def Obligations.DecAndDecsAnswerDec : Prop :=
  ∀ x s,
    (∃ t, exec (.dec x) s = .next t ∧ t.response = some (decForm s.buf)) ∧
    ∃ t, exec (.decs x) s = .next t ∧ t.response = some (decForm s.src)

/-- R45: DEC reads the first byte, then for a multi-byte header the bytes it announces, and nothing beyond; so its response
depends only on the bytes of `BUF` up to the announced length, at most nine. -/
def Obligations.DecReadsOnlyAnnouncedPrefix : Prop :=
  ∀ (x : Value) (s : State) (b b' : List Byte), b.take (formLength (headNat b)) = b'.take (formLength (headNat b)) →
    formLength (headNat b) ≤ 9 ∧
    ∃ r, exec (.dec x) { s with buf := b } = .next (answered (accessed { s with buf := b } (bufReads b)) r) ∧
      exec (.dec x) { s with buf := b' } = .next (answered (accessed { s with buf := b' } (bufReads b)) r)

/-- R140: bytes after the form do not matter: a success, a non-canonical form and an overflow stay what they are. -/
def Obligations.TrailingBytesDoNotMatter : Prop :=
  ∀ s t, decForm s ≠ .error .truncated → decForm s ≠ .error .noHeader → decForm (s ++ t) = decForm s

/-- R139, and what a reader of a split write decodes (20_memory.md R49): a proper prefix of `enc(v)` is truncated, or has
no header when it is empty. -/
def Obligations.CutFormsAreTruncated : Prop :=
  ∀ v k, k < (encForm v).length →
    decForm ((encForm v).take k) = if k = 0 then .error .noHeader else .error .truncated

/-- DEC leaves `BUF` as it is, so a second DEC gives the same response (R44, R111). -/
def Obligations.DecRepeatsItsAnswer : Prop :=
  ∀ x y s t u, exec (.dec x) s = .next t → exec (.dec y) t = .next u → u.response = t.response ∧ u.buf = s.buf

/-! ### The wire forms as instructions (the model's reading of the `WIRE` rows, log 8) -/

/-- R61: a byte below BASE is a complete form of the Value equal to itself, whatever follows; the five single-byte rows. -/
def Obligations.SingleByteFormsAreTheirValue : Prop :=
  (∀ v s, exec (.ilint1_00 v) s = .next (answered s (.ok 1#4 (some ((0b0#1 ++ v).setWidth 64))))) ∧
  (∀ v s, exec (.ilint1_80 v) s = .next (answered s (.ok 1#4 (some ((0b10#2 ++ v).setWidth 64))))) ∧
  (∀ v s, exec (.ilint1_C0 v) s = .next (answered s (.ok 1#4 (some ((0b110#3 ++ v).setWidth 64))))) ∧
  (∀ v s, exec (.ilint1_E0 v) s = .next (answered s (.ok 1#4 (some ((0b1110#4 ++ v).setWidth 64))))) ∧
  (∀ v s, exec (.ilint1_F0 v) s = .next (answered s (.ok 1#4 (some ((0b11110#5 ++ v).setWidth 64))))) ∧
  ∀ (h : Byte) rest s, h.toNat < 0xF8 → ∃ i, decodeForm (h :: rest) = .ok (i, rest) ∧
    exec i s = .next (answered s (.ok 1#4 (some (h.setWidth 64))))

/-- R62: a valid multi-byte form gives its length and `be(body) + BASE`; the eight multi-byte rows. -/
def Obligations.MultiByteFormsGiveTheirValue : Prop :=
  (∀ b s, ValidForm (0xF8#8 :: b) →
    exec (.ilint2 b) s = .next (answered s (.ok 2#4 (some (BitVec.ofNat 64 (be b + 0xF8)))))) ∧
  (∀ b s, ValidForm (0xF9#8 :: b) →
    exec (.ilint3 b) s = .next (answered s (.ok 3#4 (some (BitVec.ofNat 64 (be b + 0xF8)))))) ∧
  (∀ b s, ValidForm (0xFA#8 :: b) →
    exec (.ilint4 b) s = .next (answered s (.ok 4#4 (some (BitVec.ofNat 64 (be b + 0xF8)))))) ∧
  (∀ b s, ValidForm (0xFB#8 :: b) →
    exec (.ilint5 b) s = .next (answered s (.ok 5#4 (some (BitVec.ofNat 64 (be b + 0xF8)))))) ∧
  (∀ b s, ValidForm (0xFC#8 :: b) →
    exec (.ilint6 b) s = .next (answered s (.ok 6#4 (some (BitVec.ofNat 64 (be b + 0xF8)))))) ∧
  (∀ b s, ValidForm (0xFD#8 :: b) →
    exec (.ilint7 b) s = .next (answered s (.ok 7#4 (some (BitVec.ofNat 64 (be b + 0xF8)))))) ∧
  (∀ b s, ValidForm (0xFE#8 :: b) →
    exec (.ilint8 b) s = .next (answered s (.ok 8#4 (some (BitVec.ofNat 64 (be b + 0xF8)))))) ∧
  ∀ b s, ValidForm (0xFF#8 :: b) →
    exec (.ilint9 b) s = .next (answered s (.ok 9#4 (some (BitVec.ofNat 64 (be b + 0xF8)))))

/-- Every multi-byte row drives the core with its header and the length it announces, on any body. -/
def Obligations.WireFormsDriveTheCore : Prop :=
  ∀ b s,
    exec (.ilint2 b) s = exec (.decb 0xF8#8 2 b) s ∧ exec (.ilint3 b) s = exec (.decb 0xF9#8 3 b) s ∧
    exec (.ilint4 b) s = exec (.decb 0xFA#8 4 b) s ∧ exec (.ilint5 b) s = exec (.decb 0xFB#8 5 b) s ∧
    exec (.ilint6 b) s = exec (.decb 0xFC#8 6 b) s ∧ exec (.ilint7 b) s = exec (.decb 0xFD#8 7 b) s ∧
    exec (.ilint8 b) s = exec (.decb 0xFE#8 8 b) s ∧ exec (.ilint9 b) s = exec (.decb 0xFF#8 9 b) s

/-- When the bytes of `BUF` decode to a form, DEC is its reads and then that form, as an instruction. -/
def Obligations.DecRunsFormAtFrontOfBuffer : Prop :=
  ∀ x s i rest, decodeForm s.buf = .ok (i, rest) → exec (.dec x) s = exec i (accessed s (bufReads s.buf))

/-- When the bytes at the front of `SRC` decode to a form, DECS is its reads, which consume that form, and then the form,
as an instruction. -/
def Obligations.DecsRunsFormAtFrontOfSource : Prop :=
  ∀ x s i rest, decodeForm s.src = .ok (i, rest) →
    exec (.decs x) s = exec i (accessed { s with src := rest } (srcReads s.src))

/-! ### Laws of the codec -/

/-- R134, through the machine: what ENC appended to a sink, given to DEC as its buffer, gives back the Value and ENC's
count, which is SIZE's. -/
def Obligations.RoundTrip : Prop :=
  ∀ v x s, ∃ a b c,
    exec (.enc v) s = .next a ∧ a.response = some (.ok c none) ∧
    exec (.dec x) { a with buf := a.sink.drop s.sink.length } = .next b ∧ b.response = some (.ok c (some v)) ∧
    exec (.size v) s = .next (answered s (.ok c none))

/-- R136, through the machine: when DEC or DECS succeeds with a Value and a count, the bytes it took are `enc` of that
Value, and the count is their number, which is what SIZE returns for it. -/
def Obligations.DecoderAcceptsCanonicalFormsOnly : Prop :=
  ∀ x s t c v,
    (exec (.dec x) s = .next t → t.response = some (.ok c (some v)) →
      s.buf.take c.toNat = encForm v ∧ c.toNat = (encForm v).length ∧
        exec (.size v) s = .next (answered s (.ok c none))) ∧
    (exec (.decs x) s = .next t → t.response = some (.ok c (some v)) →
      s.src = encForm v ++ t.src ∧ c.toNat = (encForm v).length ∧
        exec (.size v) s = .next (answered s (.ok c none)))

/-- R135: every Value has exactly one valid encoded form, and it is `enc(v)`. -/
def Obligations.ExactlyOneValidFormPerValue : Prop :=
  ∀ v : Value, ValidForm (encForm v) ∧ formValue (encForm v) = v.toNat ∧
    ∀ f, ValidForm f → formValue f = v.toNat → f = encForm v

/-- R137: the length of `enc(v)`, which is SIZE's, is that of the only encoding of `v` that decoding accepts; and no
complete form of the format, valid or not, that represents `v` is shorter. -/
def Obligations.CanonicalFormIsShortest : Prop :=
  ∀ v s, exec (.size v) s = .next (answered s (.ok (BitVec.ofNat 4 (encForm v).length) none)) ∧
    (∀ b c, decForm b = .ok c (some v) → c = BitVec.ofNat 4 (encForm v).length) ∧
    ∀ f, CompleteForm f → formValue f = v.toNat → (encForm v).length ≤ f.length

/-- R101 and R48 over any number of requests: ENCS of each of a list of Values leaves one write event each, and `SSINK`
grown by their forms in order; an atomic reader sees the forms of the first so many Values, never part of one (R49).
The write events are those of the model's own record (log 5), and what an atomic reader sees is the model's `SeesAtomic`
(log 15). -/
def Obligations.EncsStreamIsWholeForms : Prop :=
  ∀ (vs : List Value) (s : State) k, s.inputs = vs.map (fun v => Input.request (3#3 ++ v)) ++ k →
    ∃ t, Host.Core.run core vs.length s = .next t ∧ t.inputs = k ∧
      t.ssink = s.ssink ++ (vs.map encForm).flatten ∧
      writeEvents t.accesses = writeEvents s.accesses ++ vs.map encForm ∧
      ∀ view, SeesAtomic s.ssink ((writeEvents t.accesses).drop (writeEvents s.accesses).length) view →
        ∃ n, n ≤ vs.length ∧ view = s.ssink ++ ((vs.take n).map encForm).flatten

/-- The forms of a list of Values, one after the other at the front of `SRC`, are read back by as many DECS, each taking
the next one whole (R112, R56). -/
def Obligations.DecsReadsBackStream : Prop :=
  ∀ (vs : List Value) (x : Value) (s : State) k rest,
    s.inputs = vs.map (fun _ => Input.request (5#3 ++ x)) ++ k → s.src = (vs.map encForm).flatten ++ rest →
    ∃ t, Host.Core.run core vs.length s = .next t ∧ t.inputs = k ∧ t.src = rest ∧
      t.responses = s.responses ++ vs.map fun v => .ok (BitVec.ofNat 4 (encForm v).length) (some v)

/-! ### Requests, responses, statuses -/

/-- R70, R71: a request word is `op` and `operand`; the eight select codes; no word selects the core or a wire form. -/
def Obligations.RequestWordsSelectOperations : Prop :=
  (∀ w, w = selectOf w ++ operandOf w) ∧
  (∀ x, decodeRequest (0#3 ++ x) = .size x ∧ decodeRequest (1#3 ++ x) = .hsize x ∧
    decodeRequest (2#3 ++ x) = .enc x ∧ decodeRequest (3#3 ++ x) = .encs x ∧
    decodeRequest (4#3 ++ x) = .dec x ∧ decodeRequest (5#3 ++ x) = .decs x ∧
    decodeRequest (6#3 ++ x) = .illegal6 x ∧ decodeRequest (7#3 ++ x) = .illegal7 x) ∧
  ∀ w, decodeRequest w ∈ [.size (operandOf w), .hsize (operandOf w), .enc (operandOf w), .encs (operandOf w),
    .dec (operandOf w), .decs (operandOf w), .illegal6 (operandOf w), .illegal7 (operandOf w)]

/-- R75: a request with `op` 6 or 7 makes no access and answers ERR_ILLEGAL_OP, whatever the operand; the next request
gets the response it would have got. -/
def Obligations.IllegalCodesAnswerIllegalOp : Prop :=
  (∀ x, decodeRequest (6#3 ++ x) = .illegal6 x ∧ decodeRequest (7#3 ++ x) = .illegal7 x) ∧
  ∀ x s,
    exec (.illegal6 x) s = .next (answered s (.error .illegalOp)) ∧
    exec (.illegal7 x) s = .next (answered s (.error .illegalOp)) ∧
    ∀ i t u, exec i s = .next t → exec i (answered s (.error .illegalOp)) = .next u → u.response = t.response

/-- The operand bits of DEC, DECS and the illegal codes influence nothing (30_encoding.md R72, 93 U2). -/
def Obligations.IgnoredOperandsInfluenceNothing : Prop :=
  ∀ x y s, exec (.dec x) s = exec (.dec y) s ∧ exec (.decs x) s = exec (.decs y) s ∧
    exec (.illegal6 x) s = exec (.illegal6 y) s ∧ exec (.illegal7 x) s = exec (.illegal7 y) s

/-- The status codes of R150: 0 for OK, 1 to 6 for the errors in the table's order; code 7 is never produced. -/
def Obligations.StatusCodesAreTheTables : Prop :=
  (∀ c v, statusCode (.ok c v) = 0#3) ∧
  statusCode (.error .domain) = 1#3 ∧ statusCode (.error .truncated) = 2#3 ∧
  statusCode (.error .noncanonical) = 3#3 ∧ statusCode (.error .overflow) = 4#3 ∧
  statusCode (.error .noHeader) = 5#3 ∧ statusCode (.error .illegalOp) = 6#3 ∧ ∀ r, statusCode r ≠ 7#3

/-- R73, R74: a response word carries the status and the fields returned; a field that is not returned may be anything
(that it is absent in the model: log 6). -/
def Obligations.ResponseWordCarriesReturnedFields : Prop :=
  (∀ w c v, carries w (.ok c (some v)) = true ↔ w = 0#3 ++ c ++ v) ∧
  (∀ w c, carries w (.ok c none) = true ↔ ∃ v : Value, w = 0#3 ++ c ++ v) ∧
  ∀ w e, carries w (.error e) = true ↔ ∃ (c : Count) (v : Value), w = errorCode e ++ c ++ v

/-- R158: which status each operation can return, and that it can. -/
def Obligations.StatusesPerOperation : Prop :=
  ∀ c : BitVec 3,
    ((∃ v s t, exec (.size v) s = .next t ∧ portStatus t = some c) ↔ c ∈ [0#3]) ∧
    ((∃ v s t, exec (.hsize v) s = .next t ∧ portStatus t = some c) ↔ c ∈ [0#3, 1#3]) ∧
    ((∃ v s t, exec (.enc v) s = .next t ∧ portStatus t = some c) ↔ c ∈ [0#3]) ∧
    ((∃ v s t, exec (.encs v) s = .next t ∧ portStatus t = some c) ↔ c ∈ [0#3]) ∧
    ((∃ h n b s t, exec (.decb h n b) s = .next t ∧ portStatus t = some c) ↔ c ∈ [0#3, 2#3, 3#3, 4#3]) ∧
    ((∃ x s t, exec (.dec x) s = .next t ∧ portStatus t = some c) ↔ c ∈ [0#3, 2#3, 3#3, 4#3, 5#3]) ∧
    ((∃ x s t, exec (.decs x) s = .next t ∧ portStatus t = some c) ↔ c ∈ [0#3, 2#3, 3#3, 4#3, 5#3]) ∧
    ((∃ x s t, exec (.illegal6 x) s = .next t ∧ portStatus t = some c) ↔ c ∈ [6#3]) ∧
    ((∃ x s t, exec (.illegal7 x) s = .next t ∧ portStatus t = some c) ↔ c ∈ [6#3])

/-! ### Frames and isolation -/

/-- The frame of every instruction (R40, R54): a space it does not reach is unchanged byte for byte, `BUF` is never
written, and one that reaches no space makes no access (by the model's record, log 5). A transaction takes one request
(R26), so those still to come, the model's list of inputs (log 2), are untouched. -/
def Obligations.OperationsReachOnlyTheirSpace : Prop :=
  ∀ i s t, exec i s = .next t →
    (∀ p, reaches i ≠ some p → contents p t = contents p s) ∧ t.buf = s.buf ∧ t.inputs = s.inputs ∧
    (reaches i = none → t.accesses = s.accesses)

/-- R28, over all instructions: `BUF` is never written, the sinks only grow at their end, `SRC` only shrinks from its
front. That the record of accesses only grows is about the model's own record (log 5). -/
def Obligations.SpacesGrowAndShrinkOnlyAtTheirEnds : Prop :=
  ∀ i s t, exec i s = .next t →
    t.buf = s.buf ∧ s.sink <+: t.sink ∧ s.ssink <+: t.ssink ∧ t.src <:+ s.src ∧ s.accesses <+: t.accesses

/-- R25: the response, the accesses and the new contents of the bound space are a function of the request and of the
contents of the bound space, and of nothing else in the state. -/
def Obligations.ResponseDependsOnBoundSpaceOnly : Prop :=
  ∀ i s s' t, (∀ p, reaches i = some p → contents p s' = contents p s) → exec i s = .next t →
    ∃ t' r as, exec i s' = .next t' ∧ t.response = some r ∧ t'.response = some r ∧
      t.accesses = s.accesses ++ as ∧ t'.accesses = s'.accesses ++ as ∧
      ∀ p, reaches i = some p → contents p t' = contents p t

/-- Transactions bound to different spaces do not affect each other (R43, R165): in either order they leave the same
bytes and each gets the same response. -/
def Obligations.TransactionsOnDistinctSpacesCommute : Prop :=
  ∀ i j s a b, (reaches i = none ∨ reaches i ≠ reaches j) → exec i s = .next a → exec j a = .next b →
    ∃ c d, exec j s = .next c ∧ exec i c = .next d ∧ (∀ p, contents p d = contents p b) ∧
      d.response = a.response ∧ c.response = b.response

/-! ### Encodings -/

/-- Decode and encode agree on every well-formed instruction, every operand at every value; and a wire form is read back
whole whatever follows it (30_encoding.md R64). -/
def Obligations.DecodeOfEncode : Prop :=
  ∀ i : Instr, i.WellFormed → decode (encode i) = .ok i ∧
    ∀ bytes rest, encode i = .wire bytes → decodeForm (bytes ++ rest) = .ok (i, rest)

/-- Every request word is the word of the instruction it decodes to: no bit of a request is dropped (R70, R71). -/
def Obligations.EncodeOfDecodedRequest : Prop := ∀ w, encode (decodeRequest w) = .request w

/-- A form read from bytes is exactly the bytes its instruction encodes to, well-formed, as long as HSIZE of the first
byte says; what follows is left over (R64). -/
def Obligations.DecodedFormIsItsBytes : Prop :=
  ∀ bytes i rest, decodeForm bytes = .ok (i, rest) →
    i.WellFormed ∧ ∃ form, encode i = .wire form ∧ bytes = form ++ rest ∧ form.length = formLength (headNat bytes)

/-- R78: any header byte matches exactly one `WIRE` row, and that row's length is the one the byte announces. -/
def Obligations.EveryHeaderMatchesOneRow : Prop :=
  ∀ h : Byte, ∃ r, wireRows.filter (fun row => row.matchesByte h) = [r] ∧ r.totalLen = formLength h.toNat

/-- Words written out from the spec's encodings decode to what they stand for (95_test_vectors.md D-REQ, D-ENC 10), and
three that stand in neither table: E5 by 30_encoding.md R61 and R78, and the cut form F9 01 and the empty input by R67
(95_test_vectors.md D-DEC 9 and 1). -/
def Obligations.WrittenWordsDecode : Prop :=
  decodeRequest 0x0000000000000021B#67 = .size 0x21B#64 ∧
  decodeRequest 0x100000000000001F9#67 = .hsize 0x1F9#64 ∧
  decodeRequest 0x3FFFFFFFFFFFFFFFF#67 = .encs 0xFFFFFFFFFFFFFFFF#64 ∧
  decodeRequest 0x4000000000000ABCD#67 = .dec 0xABCD#64 ∧
  decodeRequest 0x7000000000000021B#67 = .illegal7 0x21B#64 ∧
  decode (.wire [0xE5#8, 0x01#8]) = .ok (.ilint1_E0 0x5#4) ∧
  decode (.wire [0xF9#8, 0x01#8, 0x23#8]) = .ok (.ilint3 [0x01#8, 0x23#8]) ∧
  decode (.wire [0xF9#8, 0x01#8]) = .error .truncated ∧ decode (.wire []) = .error .noHeader

end
end

