-- ==== Sys2Proof/Laws/Bytes.lean ====
section
/-!
SUPPORT. Sys2Proof/Laws/Bytes.lean: arithmetic of big-endian byte sequences (00_scope.md R10).
-/

namespace Sys2Proof.Machine

theorem be_foldl (s : List Byte) (a : Nat) :
    s.foldl (fun acc b => 256 * acc + b.toNat) a = a * 256 ^ s.length + be s := by
  unfold be
  induction s generalizing a with
  | nil => simp
  | cons b s ih =>
    simp only [List.foldl_cons, List.length_cons]
    rw [ih, ih (256 * 0 + b.toNat), Nat.pow_succ]
    simp only [Nat.mul_zero, Nat.zero_add, Nat.add_mul]
    rw [show 256 * a * 256 ^ s.length = a * (256 ^ s.length * 256) by
      rw [Nat.mul_comm 256 a, Nat.mul_assoc, Nat.mul_comm 256]]
    omega

theorem be_cons (b : Byte) (s : List Byte) : be (b :: s) = b.toNat * 256 ^ s.length + be s := by
  have h := be_foldl s (256 * 0 + b.toNat)
  simpa [be] using h

theorem be_lt (s : List Byte) : be s < 256 ^ s.length := by
  induction s with
  | nil => simp [be]
  | cons b s ih =>
    rw [be_cons, List.length_cons, Nat.pow_succ]
    have hb : b.toNat < 256 := b.isLt
    have : b.toNat * 256 ^ s.length ≤ 255 * 256 ^ s.length := Nat.mul_le_mul_right _ (by omega)
    omega

/-- A first byte that is not zero makes the number at least `256^(n−1)`. -/
theorem le_be_cons (b : Byte) (s : List Byte) (hb : b ≠ 0x00#8) : 256 ^ s.length ≤ be (b :: s) := by
  rw [be_cons]
  have h0 : 0 < b.toNat := by
    rcases Nat.eq_zero_or_pos b.toNat with h | h
    · exact absurd (BitVec.eq_of_toNat_eq (by simpa using h)) hb
    · exact h
  exact Nat.le_trans (Nat.le_mul_of_pos_left _ h0) (Nat.le_add_right _ _)

/-- A leading zero byte leaves less than `256^(n−1)` (R67). -/
theorem be_zero_cons (s : List Byte) : be (0x00#8 :: s) = be s := by
  rw [be_cons]; simp

theorem be_append_one (s : List Byte) (b : Byte) : be (s ++ [b]) = 256 * be s + b.toNat := by
  simp [be, List.foldl_append]

@[simp] theorem bytesBe_zero (x : Nat) : bytesBe x 0 = [] := rfl

theorem bytesBe_succ (x k : Nat) : bytesBe x (k + 1) = bytesBe (x / 256) k ++ [BitVec.ofNat 8 x] := rfl

@[simp] theorem length_bytesBe (x n : Nat) : (bytesBe x n).length = n := by
  induction n generalizing x with
  | zero => rfl
  | succ k ih => simp [bytesBe_succ, ih]

theorem be_bytesBe (x n : Nat) (h : x < 256 ^ n) : be (bytesBe x n) = x := by
  induction n generalizing x with
  | zero => simp at h; simp [h, be]
  | succ k ih =>
    rw [bytesBe_succ, be_append_one, ih (x / 256) (by rw [Nat.pow_succ] at h; omega)]
    simp only [BitVec.toNat_ofNat]
    omega

/-- Two sequences of one length that denote one number are the same. -/
theorem be_inj (s t : List Byte) (hl : s.length = t.length) (h : be s = be t) : s = t := by
  induction s generalizing t with
  | nil => exact (List.eq_nil_of_length_eq_zero (by simpa using hl.symm)).symm
  | cons b s ih =>
    cases t with
    | nil => simp at hl
    | cons c t =>
      simp only [List.length_cons, Nat.add_right_cancel_iff] at hl
      rw [be_cons, be_cons, ← hl] at h
      have h1 := be_lt s
      have h2 := be_lt t
      rw [← hl] at h2
      have hb : b.toNat = c.toNat := by
        have e1 : (b.toNat * 256 ^ s.length + be s) / 256 ^ s.length = b.toNat := by
          rw [Nat.mul_comm, Nat.mul_add_div (by omega), Nat.div_eq_of_lt h1, Nat.add_zero]
        have e2 : (c.toNat * 256 ^ s.length + be t) / 256 ^ s.length = c.toNat := by
          rw [Nat.mul_comm, Nat.mul_add_div (by omega), Nat.div_eq_of_lt h2, Nat.add_zero]
        rw [← e1, ← e2, h]
      have hbc := BitVec.eq_of_toNat_eq hb
      subst hbc
      rw [ih t hl (by omega)]

/-- The bytes of a number of the right width are the only ones that denote it. -/
theorem bytesBe_be (s : List Byte) : bytesBe (be s) s.length = s :=
  be_inj _ _ (by simp) (be_bytesBe _ _ (be_lt s))

end Sys2Proof.Machine
end

