-- ==== Sys2Proof/Laws/Sizes.lean ====
section
/-!
SUPPORT. Sys2Proof/Laws/Sizes.lean: what SIZE says about the body of a form (40_size_unit.md R90), and the shape of the
encoding function (41_encoder.md R102).
-/

namespace Sys2Proof.Machine

@[simp] theorem base_eq : Config.base = 248 := rfl

@[simp] theorem valueMax_eq : Config.valueMax = 18446744073709551615 := rfl

theorem sizeOfValue_single (v : Nat) (h : v < 248) : sizeOfValue v = 1 := by
  simp [sizeOfValue, h]

/-- The nine bands of R90, each with the size it gives. -/
theorem sizeOfValue_cases (v : Nat) :
    (v < 248 ∧ sizeOfValue v = 1) ∨ (248 ≤ v ∧ v ≤ 503 ∧ sizeOfValue v = 2) ∨
    (504 ≤ v ∧ v ≤ 65783 ∧ sizeOfValue v = 3) ∨ (65784 ≤ v ∧ v ≤ 16777463 ∧ sizeOfValue v = 4) ∨
    (16777464 ≤ v ∧ v ≤ 4294967543 ∧ sizeOfValue v = 5) ∨
    (4294967544 ≤ v ∧ v ≤ 1099511628023 ∧ sizeOfValue v = 6) ∨
    (1099511628024 ≤ v ∧ v ≤ 281474976710903 ∧ sizeOfValue v = 7) ∨
    (281474976710904 ≤ v ∧ v ≤ 72057594037928183 ∧ sizeOfValue v = 8) ∨
    (72057594037928184 ≤ v ∧ sizeOfValue v = 9) := by
  generalize hn : sizeOfValue v = n
  unfold sizeOfValue Config.base at hn
  repeat' split at hn
  all_goals omega

/-- Everything SIZE says of a Value of more than one byte: the size, and that the body fits and fills it. -/
theorem sizeOfValue_multi (v : Nat) (h : 248 ≤ v) (hv : v < 2 ^ 64) :
    2 ≤ sizeOfValue v ∧ sizeOfValue v ≤ 9 ∧ v - 248 < 256 ^ (sizeOfValue v - 1) ∧
      (3 ≤ sizeOfValue v → 256 ^ (sizeOfValue v - 2) ≤ v - 248) := by
  rcases sizeOfValue_cases v with ⟨h1, hs⟩ | ⟨h1, h2, hs⟩ | ⟨h1, h2, hs⟩ | ⟨h1, h2, hs⟩ | ⟨h1, h2, hs⟩ |
    ⟨h1, h2, hs⟩ | ⟨h1, h2, hs⟩ | ⟨h1, h2, hs⟩ | ⟨h1, hs⟩ <;> rw [hs] <;> simp <;> omega

theorem sizeOfValue_range (v : Nat) (hv : v < 2 ^ 64) : 1 ≤ sizeOfValue v ∧ sizeOfValue v ≤ 9 := by
  rcases Nat.lt_or_ge v 248 with h | h
  · simp [sizeOfValue_single v h]
  · have := sizeOfValue_multi v h hv
    omega

/-- The bounds of a body fix the size. -/
theorem sizeOfValue_unique (v n : Nat) (hn : 2 ≤ n) (h9 : n ≤ 9) (h : 248 ≤ v) (hlt : v - 248 < 256 ^ (n - 1))
    (hle : 3 ≤ n → 256 ^ (n - 2) ≤ v - 248) : sizeOfValue v = n := by
  have hn' : n = 2 ∨ n = 3 ∨ n = 4 ∨ n = 5 ∨ n = 6 ∨ n = 7 ∨ n = 8 ∨ n = 9 := by omega
  have hc := sizeOfValue_cases v
  rcases hn' with rfl | rfl | rfl | rfl | rfl | rfl | rfl | rfl <;> simp at hlt hle <;> omega

theorem sizeOfValue_mono (v w : Nat) (h : v ≤ w) : sizeOfValue v ≤ sizeOfValue w := by
  have hv := sizeOfValue_cases v
  have hw := sizeOfValue_cases w
  omega

@[simp] theorem length_bodyOfValue (v : Nat) : (bodyOfValue v).length = sizeOfValue v - 1 := by
  simp [bodyOfValue]

theorem be_bodyOfValue (v : Nat) (h : 248 ≤ v) (hv : v < 2 ^ 64) : be (bodyOfValue v) = v - 248 := by
  simp only [bodyOfValue, base_eq]
  exact be_bytesBe _ _ (sizeOfValue_multi v h hv).2.2.1

/-- From three bytes on the body does not begin with a zero byte. -/
theorem bodyOfValue_head (v : Nat) (h : 248 ≤ v) (hv : v < 2 ^ 64) (h3 : 3 ≤ sizeOfValue v) :
    (bodyOfValue v)[0]? ≠ some 0x00#8 := by
  intro h0
  have hs := sizeOfValue_multi v h hv
  have hb := be_bodyOfValue v h hv
  have hl := length_bodyOfValue v
  cases hbody : bodyOfValue v with
  | nil => simp [hbody] at hl; omega
  | cons b t =>
    rw [hbody] at h0 hb hl
    simp only [List.getElem?_cons_zero, Option.some.injEq] at h0
    subst h0
    rw [be_zero_cons] at hb
    have hlt := be_lt t
    simp only [List.length_cons] at hl
    have ht : t.length = sizeOfValue v - 2 := by omega
    rw [ht] at hlt
    have := hs.2.2.2 h3
    omega

theorem headerOfSize_toNat (n : Nat) (h2 : 2 ≤ n) (h9 : n ≤ 9) : (headerOfSize n).toNat = 248 + (n - 2) := by
  simp only [headerOfSize, base_eq, BitVec.toNat_ofNat]
  omega

theorem encForm_single (v : Value) (h : v.toNat < 248) : encForm v = [BitVec.ofNat 8 v.toNat] := by
  simp [encForm, h]

theorem encForm_multi (v : Value) (h : 248 ≤ v.toNat) :
    encForm v = headerOfSize (sizeOfValue v.toNat) :: bodyOfValue v.toNat := by
  simp [encForm, Nat.not_lt.mpr h]

@[simp] theorem length_encForm (v : Value) : (encForm v).length = sizeOfValue v.toNat := by
  rcases Nat.lt_or_ge v.toNat 248 with h | h
  · simp [encForm_single v h, sizeOfValue_single _ h]
  · have := sizeOfValue_multi v.toNat h v.isLt
    simp only [encForm_multi v h, List.length_cons, length_bodyOfValue]
    omega

end Sys2Proof.Machine
end

