-- ==== Sys2Proof/Laws/Bands.lean ====
section
/-!
SUPPORT. Sys2Proof/Laws/Bands.lean: the table of bands that statements use is the thresholds the machine uses
(40_size_unit.md R90).
-/

namespace Sys2Proof.Safety

open Sys2Proof.Machine

/-- A Value lies in the band of its size and in no other. -/
theorem inBand_iff (n v : Nat) (hv : v < 2 ^ 64) : InBand n v ↔ n = sizeOfValue v := by
  have hc := sizeOfValue_cases v
  simp only [InBand, sizeBands, List.mem_cons, List.not_mem_nil, or_false, exists_eq_or_imp, exists_eq_left]
  constructor
  · intro h
    rcases h with ⟨a, b, c⟩ | ⟨a, b, c⟩ | ⟨a, b, c⟩ | ⟨a, b, c⟩ | ⟨a, b, c⟩ | ⟨a, b, c⟩ | ⟨a, b, c⟩ | ⟨a, b, c⟩ |
      ⟨a, b, c⟩ <;> subst a <;> omega
  · rintro rfl
    rcases hc with ⟨h1, h2⟩ | ⟨h1, h2, h3⟩ | ⟨h1, h2, h3⟩ | ⟨h1, h2, h3⟩ | ⟨h1, h2, h3⟩ | ⟨h1, h2, h3⟩ | ⟨h1, h2, h3⟩ |
      ⟨h1, h2, h3⟩ | ⟨h1, h2⟩ <;> simp [*] <;> omega

end Sys2Proof.Safety
end

