-- ==== Sys2Proof/Laws/State.lean ====
section
/-!
SUPPORT. Sys2Proof/Laws/State.lean: what each update of the state does to each field, one lemma a field, so that no proof
unfolds an update.
-/

namespace Sys2Proof.Machine

/-! ### `record` -/

@[simp] theorem record_buf (s : State) (a : Access) : (record s a).buf = s.buf := rfl

@[simp] theorem record_sink (s : State) (a : Access) : (record s a).sink = s.sink := rfl

@[simp] theorem record_ssink (s : State) (a : Access) : (record s a).ssink = s.ssink := rfl

@[simp] theorem record_src (s : State) (a : Access) : (record s a).src = s.src := rfl

@[simp] theorem record_inputs (s : State) (a : Access) : (record s a).inputs = s.inputs := rfl

@[simp] theorem record_response (s : State) (a : Access) : (record s a).response = s.response := rfl

@[simp] theorem record_responses (s : State) (a : Access) : (record s a).responses = s.responses := rfl

@[simp] theorem record_accesses (s : State) (a : Access) : (record s a).accesses = s.accesses ++ [a] := rfl

/-! ### `memRead` -/

@[simp] theorem memRead_bytes (s : State) (i n : Nat) : (memRead s i n).1 = slice s.buf i n := rfl

@[simp] theorem memRead_buf (s : State) (i n : Nat) : ((memRead s i n).2).buf = s.buf := rfl

@[simp] theorem memRead_sink (s : State) (i n : Nat) : ((memRead s i n).2).sink = s.sink := rfl

@[simp] theorem memRead_ssink (s : State) (i n : Nat) : ((memRead s i n).2).ssink = s.ssink := rfl

@[simp] theorem memRead_src (s : State) (i n : Nat) : ((memRead s i n).2).src = s.src := rfl

@[simp] theorem memRead_inputs (s : State) (i n : Nat) : ((memRead s i n).2).inputs = s.inputs := rfl

@[simp] theorem memRead_response (s : State) (i n : Nat) : ((memRead s i n).2).response = s.response := rfl

@[simp] theorem memRead_responses (s : State) (i n : Nat) : ((memRead s i n).2).responses = s.responses := rfl

@[simp] theorem memRead_accesses (s : State) (i n : Nat) : ((memRead s i n).2).accesses = s.accesses ++ [.memRead i n] := rfl

/-! ### `srcRead` -/

@[simp] theorem srcRead_bytes (s : State) (n : Nat) : (srcRead s n).1 = s.src.take n := rfl

@[simp] theorem srcRead_buf (s : State) (n : Nat) : ((srcRead s n).2).buf = s.buf := rfl

@[simp] theorem srcRead_sink (s : State) (n : Nat) : ((srcRead s n).2).sink = s.sink := rfl

@[simp] theorem srcRead_ssink (s : State) (n : Nat) : ((srcRead s n).2).ssink = s.ssink := rfl

@[simp] theorem srcRead_src (s : State) (n : Nat) : ((srcRead s n).2).src = s.src.drop n := rfl

@[simp] theorem srcRead_inputs (s : State) (n : Nat) : ((srcRead s n).2).inputs = s.inputs := rfl

@[simp] theorem srcRead_response (s : State) (n : Nat) : ((srcRead s n).2).response = s.response := rfl

@[simp] theorem srcRead_responses (s : State) (n : Nat) : ((srcRead s n).2).responses = s.responses := rfl

@[simp] theorem srcRead_accesses (s : State) (n : Nat) : ((srcRead s n).2).accesses = s.accesses ++ [.srcRead n] := rfl

/-! ### `sinkAppend` -/

@[simp] theorem sinkAppend_buf (s : State) (bytes : List Byte) : (sinkAppend s bytes).buf = s.buf := rfl

@[simp] theorem sinkAppend_sink (s : State) (bytes : List Byte) : (sinkAppend s bytes).sink = s.sink ++ bytes := rfl

@[simp] theorem sinkAppend_ssink (s : State) (bytes : List Byte) : (sinkAppend s bytes).ssink = s.ssink := rfl

@[simp] theorem sinkAppend_src (s : State) (bytes : List Byte) : (sinkAppend s bytes).src = s.src := rfl

@[simp] theorem sinkAppend_inputs (s : State) (bytes : List Byte) : (sinkAppend s bytes).inputs = s.inputs := rfl

@[simp] theorem sinkAppend_response (s : State) (bytes : List Byte) : (sinkAppend s bytes).response = s.response := rfl

@[simp] theorem sinkAppend_responses (s : State) (bytes : List Byte) : (sinkAppend s bytes).responses = s.responses := rfl

@[simp] theorem sinkAppend_accesses (s : State) (bytes : List Byte) : (sinkAppend s bytes).accesses = s.accesses ++ [.sinkAppend bytes] := rfl

/-! ### `streamWrite` -/

@[simp] theorem streamWrite_buf (s : State) (bytes : List Byte) : (streamWrite s bytes).buf = s.buf := rfl

@[simp] theorem streamWrite_sink (s : State) (bytes : List Byte) : (streamWrite s bytes).sink = s.sink := rfl

@[simp] theorem streamWrite_ssink (s : State) (bytes : List Byte) : (streamWrite s bytes).ssink = s.ssink ++ bytes := rfl

@[simp] theorem streamWrite_src (s : State) (bytes : List Byte) : (streamWrite s bytes).src = s.src := rfl

@[simp] theorem streamWrite_inputs (s : State) (bytes : List Byte) : (streamWrite s bytes).inputs = s.inputs := rfl

@[simp] theorem streamWrite_response (s : State) (bytes : List Byte) : (streamWrite s bytes).response = s.response := rfl

@[simp] theorem streamWrite_responses (s : State) (bytes : List Byte) : (streamWrite s bytes).responses = s.responses := rfl

@[simp] theorem streamWrite_accesses (s : State) (bytes : List Byte) : (streamWrite s bytes).accesses = s.accesses ++ [.streamWrite bytes] := rfl

/-! ### `respond` -/

@[simp] theorem respond_buf (s : State) (r : Response) : (respond s r).buf = s.buf := rfl

@[simp] theorem respond_sink (s : State) (r : Response) : (respond s r).sink = s.sink := rfl

@[simp] theorem respond_ssink (s : State) (r : Response) : (respond s r).ssink = s.ssink := rfl

@[simp] theorem respond_src (s : State) (r : Response) : (respond s r).src = s.src := rfl

@[simp] theorem respond_inputs (s : State) (r : Response) : (respond s r).inputs = s.inputs := rfl

@[simp] theorem respond_response (s : State) (r : Response) : (respond s r).response = some r := rfl

@[simp] theorem respond_responses (s : State) (r : Response) : (respond s r).responses = s.responses ++ [r] := rfl

@[simp] theorem respond_accesses (s : State) (r : Response) : (respond s r).accesses = s.accesses := rfl

end Sys2Proof.Machine
end

