-- ==== Sys2Proof/Laws/Ops.lean ====
section
/-!
SUPPORT. Sys2Proof/Laws/Ops.lean: for each shared operation, everything it can do, said once.
-/

namespace Sys2Proof.Machine

/-- A transaction that answers gives the next state that holds its response, and no other outcome. -/
theorem answer_next (s t : State) (r : Response) : answer s r = .next t ↔ t = respond s r := by
  simp only [answer, Host.Outcome.next.injEq]
  exact eq_comm

@[simp] theorem raiseError_eq (s : State) (e : Error) : raiseError s e = .next (respond s (.error e)) := rfl

@[simp] theorem returnCount_eq (s : State) (n : Nat) :
    returnCount s n = .next (respond s (.ok (BitVec.ofNat 4 n) none)) := rfl

@[simp] theorem returnDecoded_eq (s : State) (v n : Nat) :
    returnDecoded s v n = .next (respond s (.ok (BitVec.ofNat 4 n) (some (BitVec.ofNat 64 v)))) := rfl

/-- A slice from the front is a prefix. -/
@[simp] theorem slice_zero (b : List Byte) (n : Nat) : slice b 0 n = b.take n := rfl

theorem length_slice_le (b : List Byte) (i n : Nat) : (slice b i n).length ≤ n := by
  simp only [slice, List.length_take]
  exact Nat.min_le_left _ _

/-- What a read of the source returns and what it leaves make up what was there (R50). -/
theorem srcRead_split (s : State) (n : Nat) : (srcRead s n).1 ++ (srcRead s n).2.src = s.src := by
  simp

end Sys2Proof.Machine
end

