-- ==== Sys2Proof/Laws/Decoding.lean ====
section
/-!
SUPPORT. Sys2Proof/Laws/Decoding.lean: what DECB, DEC and DECS can do, in terms of the function `dec` (42_decoder.md R110
to R113), and the cases of `dec`.
-/

namespace Sys2Proof.Machine

theorem formLength_single (h : Nat) (hh : h < 248) : formLength h = 1 := by simp [formLength, hh]

theorem formLength_multi (h : Nat) (hh : 248 ≤ h) : formLength h = h - 248 + 2 := by
  simp [formLength, Nat.not_lt.mpr hh]

theorem formLength_byte (h : Byte) : 1 ≤ formLength h.toNat ∧ formLength h.toNat ≤ 9 := by
  have := h.isLt
  rcases Nat.lt_or_ge h.toNat 248 with hh | hh
  · simp [formLength_single _ hh]
  · rw [formLength_multi _ hh]
    omega

/-- A header that announces a body, with the bytes that follow it, is inside the contract of the core (R188). -/
theorem coreContract_take (h : Byte) (rest : List Byte) (hh : 248 ≤ h.toNat) :
    CoreContract h (formLength h.toNat) (rest.take (formLength h.toNat - 1)) := by
  refine ⟨by simpa using hh, by simpa using formLength_multi _ hh, ?_⟩
  simp only [List.length_take]
  exact Nat.min_le_left _ _

theorem coreCall_inside {h : Byte} {n : Nat} {body : List Byte} (c : CoreContract h n body) (s : State) :
    coreCall h n body s = .next (respond s (coreResponse n body)) := by
  simp only [coreCall, if_pos c, answer]

theorem coreCall_outside {h : Byte} {n : Nat} {body : List Byte} (c : ¬ CoreContract h n body) (s : State) :
    coreCall h n body s = .refused .outsideCoreContract := by
  simp only [coreCall, if_neg c]

/-- The core answers, or refuses a call outside its contract; nothing else. -/
theorem coreCall_cases (h : Byte) (n : Nat) (body : List Byte) (s : State) :
    (CoreContract h n body ∧ coreCall h n body s = .next (respond s (coreResponse n body))) ∨
    (¬ CoreContract h n body ∧ coreCall h n body s = .refused .outsideCoreContract) := by
  by_cases c : CoreContract h n body
  · exact .inl ⟨c, coreCall_inside c s⟩
  · exact .inr ⟨c, coreCall_outside c s⟩

@[simp] theorem decForm_nil : decForm [] = .error .noHeader := rfl

theorem decForm_single (h : Byte) (rest : List Byte) (hh : h.toNat < 248) :
    decForm (h :: rest) = .ok 1#4 (some (BitVec.ofNat 64 h.toNat)) := by
  simp [decForm, hh]

theorem decForm_multi (h : Byte) (rest : List Byte) (hh : 248 ≤ h.toNat) :
    decForm (h :: rest) = coreResponse (formLength h.toNat) (rest.take (formLength h.toNat - 1)) := by
  simp [decForm, Nat.not_lt.mpr hh]

/-- The state in which DEC answers: its reads are made, and no space has changed. -/
def afterBufReads (s : State) : State :=
  match s.buf with
  | [] => record s (.memRead 0 1)
  | h :: _ =>
    if h.toNat < 248 then record s (.memRead 0 1)
    else record (record s (.memRead 0 1)) (.memRead 1 (formLength h.toNat - 1))

/-- The state in which DECS answers: its reads are made, and what they returned is gone from the source. -/
def afterSrcReads (s : State) : State :=
  match s.src with
  | [] => record s (.srcRead 1)
  | h :: rest =>
    if h.toNat < 248 then record { s with src := rest } (.srcRead 1)
    else record { record { s with src := rest } (.srcRead 1) with src := rest.drop (formLength h.toNat - 1) }
      (.srcRead (formLength h.toNat - 1))

/-- DEC is its reads and then the answer `dec` gives for the buffer (R111, R113). -/
theorem execDec_eq (s : State) : execDec s = .next (respond (afterBufReads s) (decForm s.buf)) := by
  unfold execDec afterBufReads
  cases hb : s.buf with
  | nil => simp [memRead, hb]
  | cons h rest =>
    rcases Nat.lt_or_ge h.toNat 248 with hh | hh
    · simp [memRead, hb, hh, decForm_single]
    · simp only [memRead, slice, hb, List.drop_zero, List.take_succ_cons, List.take_zero, base_eq,
        Nat.not_lt.mpr hh, if_false, record_buf, List.drop_succ_cons, decForm_multi h rest hh]
      exact coreCall_inside (coreContract_take h rest hh) _

/-- DECS is its reads, which consume, and then the answer `dec` gives for the stream (R112, R113). -/
theorem execDecs_eq (s : State) : execDecs s = .next (respond (afterSrcReads s) (decForm s.src)) := by
  unfold execDecs afterSrcReads
  cases hb : s.src with
  | nil =>
    simp only [srcRead, hb, List.take_nil, List.drop_nil, raiseError_eq, decForm_nil]
    rw [← hb]
  | cons h rest =>
    rcases Nat.lt_or_ge h.toNat 248 with hh | hh
    · simp [srcRead, hb, hh, decForm_single]
    · simp only [srcRead, hb, List.take_succ_cons, List.take_zero, base_eq, List.drop_succ_cons, List.drop_zero,
        Nat.not_lt.mpr hh, if_false, record_src, decForm_multi h rest hh]
      exact coreCall_inside (coreContract_take h rest hh) _

end Sys2Proof.Machine
end

