-- ==== Sys2Proof/Laws/Exec.lean ====
section
/-!
SUPPORT. Sys2Proof/Laws/Exec.lean: everything an instruction can do, said once: it makes its accesses, gives one response and
goes on, or it is a core call outside the contract and is refused. Frames, invariants and completion follow from this.
-/

namespace Sys2Proof.Machine

/-- The state after the accesses of an instruction, before its response. -/
def effect (i : Instr) (s : State) : State :=
  match i with
  | .enc v =>
    if v.toNat < 248 then sinkAppend s [BitVec.ofNat 8 v.toNat]
    else sinkAppend (sinkAppend s [headerOfSize (sizeOfValue v.toNat)]) (bodyOfValue v.toNat)
  | .encs v => streamWrite s (encForm v)
  | .dec _ => afterBufReads s
  | .decs _ => afterSrcReads s
  | .size _ | .hsize _ | .illegal6 _ | .illegal7 _ | .decb _ _ _ => s
  | .ilint1_00 _ | .ilint1_80 _ | .ilint1_C0 _ | .ilint1_E0 _ | .ilint1_F0 _ => s
  | .ilint2 _ | .ilint3 _ | .ilint4 _ | .ilint5 _ | .ilint6 _ | .ilint7 _ | .ilint8 _ | .ilint9 _ => s

/-- The response of an instruction. -/
def reply (i : Instr) (s : State) : Response :=
  match i with
  | .size v => .ok (BitVec.ofNat 4 (sizeOfValue v.toNat)) none
  | .hsize h => if 255 < h.toNat then .error .domain else .ok (BitVec.ofNat 4 (formLength h.toNat)) none
  | .enc v => .ok (BitVec.ofNat 4 (sizeOfValue v.toNat)) none
  | .encs v => .ok (BitVec.ofNat 4 (sizeOfValue v.toNat)) none
  | .dec _ => decForm s.buf
  | .decs _ => decForm s.src
  | .illegal6 _ | .illegal7 _ => .error .illegalOp
  | .decb _ n body => coreResponse n body
  | .ilint1_00 v => .ok 1#4 (some (BitVec.ofNat 64 ((0b0#1 ++ v).toNat)))
  | .ilint1_80 v => .ok 1#4 (some (BitVec.ofNat 64 ((0b10#2 ++ v).toNat)))
  | .ilint1_C0 v => .ok 1#4 (some (BitVec.ofNat 64 ((0b110#3 ++ v).toNat)))
  | .ilint1_E0 v => .ok 1#4 (some (BitVec.ofNat 64 ((0b1110#4 ++ v).toNat)))
  | .ilint1_F0 v => .ok 1#4 (some (BitVec.ofNat 64 ((0b11110#5 ++ v).toNat)))
  | .ilint2 body => coreResponse 2 body
  | .ilint3 body => coreResponse 3 body
  | .ilint4 body => coreResponse 4 body
  | .ilint5 body => coreResponse 5 body
  | .ilint6 body => coreResponse 6 body
  | .ilint7 body => coreResponse 7 body
  | .ilint8 body => coreResponse 8 body
  | .ilint9 body => coreResponse 9 body

/-- The instruction is no core call outside the contract. -/
def inContract (i : Instr) : Bool :=
  match i with
  | .decb h n body => decide (CoreContract h n body)
  | .ilint2 body => decide (body.length ≤ 1)
  | .ilint3 body => decide (body.length ≤ 2)
  | .ilint4 body => decide (body.length ≤ 3)
  | .ilint5 body => decide (body.length ≤ 4)
  | .ilint6 body => decide (body.length ≤ 5)
  | .ilint7 body => decide (body.length ≤ 6)
  | .ilint8 body => decide (body.length ≤ 7)
  | .ilint9 body => decide (body.length ≤ 8)
  | .size _ | .hsize _ | .enc _ | .encs _ | .dec _ | .decs _ | .illegal6 _ | .illegal7 _ => true
  | .ilint1_00 _ | .ilint1_80 _ | .ilint1_C0 _ | .ilint1_E0 _ | .ilint1_F0 _ => true

/-- A multi-byte wire form inside its header's length drives the core; a longer body is refused. -/
theorem multiByteForm_eq (h : Byte) (body : List Byte) (s : State) (hh : 248 ≤ h.toNat) :
    multiByteForm h body s =
      if body.length ≤ formLength h.toNat - 1 then .next (respond s (coreResponse (formLength h.toNat) body))
      else .refused .outsideCoreContract := by
  unfold multiByteForm
  have hn := formLength_multi _ hh
  by_cases hb : body.length ≤ formLength h.toNat - 1
  · rw [if_pos hb]
    exact coreCall_inside ⟨by simpa using hh, by simpa using hn, hb⟩ s
  · rw [if_neg hb]
    exact coreCall_outside (fun c => hb c.2.2) s

/-- Everything an instruction can do. -/
theorem exec_eq (i : Instr) (s : State) :
    exec i s = if inContract i then .next (respond (effect i s) (reply i s)) else .refused .outsideCoreContract := by
  cases i with
  | size v => rfl
  | hsize h =>
    simp only [exec, execHsize, inContract, effect, reply]
    split <;> rfl
  | enc v =>
    simp only [exec, execEnc, inContract, effect, reply, base_eq]
    split
    · rename_i h
      simp [sizeOfValue_single _ h]
    · rfl
  | encs v => simp [exec, execEncs, inContract, effect, reply]
  | dec x => exact execDec_eq s
  | decs x => exact execDecs_eq s
  | illegal6 x => rfl
  | illegal7 x => rfl
  | decb h n body =>
    simp only [exec, execDecb, inContract, effect, reply, decide_eq_true_eq]
    rcases coreCall_cases h n body s with ⟨c, e⟩ | ⟨c, e⟩
    · rw [if_pos c, e]
    · rw [if_neg c, e]
  | ilint1_00 v => rfl
  | ilint1_80 v => rfl
  | ilint1_C0 v => rfl
  | ilint1_E0 v => rfl
  | ilint1_F0 v => rfl
  | ilint2 body =>
    simp only [exec, execIlint2, inContract, effect, reply, decide_eq_true_eq]
    exact multiByteForm_eq 0xF8#8 body s (by decide)
  | ilint3 body =>
    simp only [exec, execIlint3, inContract, effect, reply, decide_eq_true_eq]
    exact multiByteForm_eq 0xF9#8 body s (by decide)
  | ilint4 body =>
    simp only [exec, execIlint4, inContract, effect, reply, decide_eq_true_eq]
    exact multiByteForm_eq 0xFA#8 body s (by decide)
  | ilint5 body =>
    simp only [exec, execIlint5, inContract, effect, reply, decide_eq_true_eq]
    exact multiByteForm_eq 0xFB#8 body s (by decide)
  | ilint6 body =>
    simp only [exec, execIlint6, inContract, effect, reply, decide_eq_true_eq]
    exact multiByteForm_eq 0xFC#8 body s (by decide)
  | ilint7 body =>
    simp only [exec, execIlint7, inContract, effect, reply, decide_eq_true_eq]
    exact multiByteForm_eq 0xFD#8 body s (by decide)
  | ilint8 body =>
    simp only [exec, execIlint8, inContract, effect, reply, decide_eq_true_eq]
    exact multiByteForm_eq 0xFE#8 body s (by decide)
  | ilint9 body =>
    simp only [exec, execIlint9, inContract, effect, reply, decide_eq_true_eq]
    exact multiByteForm_eq 0xFF#8 body s (by decide)

/-- An instruction that goes on has made its accesses and given its response, inside the contract. -/
theorem exec_next {i : Instr} {s t : State} (h : exec i s = .next t) :
    inContract i = true ∧ t = respond (effect i s) (reply i s) := by
  rw [exec_eq] at h
  split at h
  · rename_i c
    exact ⟨c, (Host.Outcome.next.inj h).symm⟩
  · cases h

theorem exec_inContract {i : Instr} (c : inContract i = true) (s : State) :
    exec i s = .next (respond (effect i s) (reply i s)) := by
  rw [exec_eq, if_pos c]

/-- A well-formed instruction is inside the contract. -/
theorem inContract_of_wellFormed (i : Instr) (h : i.WellFormed) : inContract i = true := by
  cases i with
  | decb header n body => exact h
  | _ => simp_all [Instr.WellFormed, Instr.wellFormed, inContract]

/-- Every request is. -/
theorem inContract_decodeRequest (w : RequestWord) : inContract (decodeRequest w) = true := by
  unfold decodeRequest
  split <;> rfl

/-- A step takes the next input; with a request it runs the decoded instruction, to its response. -/
theorem step_cases (s : State) :
    (s.inputs = [] ∧ step s = .next s) ∨
    (∃ w rest, s.inputs = .request w :: rest ∧
      step s = .next (respond (effect (decodeRequest w) { s with inputs := rest })
        (reply (decodeRequest w) { s with inputs := rest }))) ∨
    (∃ rest b, step s = .next { s with inputs := rest, buf := b }) ∨
    (∃ rest b, step s = .next { s with inputs := rest, sink := b }) ∨
    (∃ rest b, step s = .next { s with inputs := rest, ssink := b }) ∨
    (∃ rest b, step s = .next { s with inputs := rest, src := b }) ∨
    (∃ rest, step s = .next { s with inputs := rest, response := none }) := by
  unfold step takeInput
  cases hin : s.inputs with
  | nil => exact .inl ⟨rfl, rfl⟩
  | cons m rest =>
    right
    cases m with
    | request w => exact .inl ⟨w, rest, rfl, exec_inContract (inContract_decodeRequest w) _⟩
    | bindBuf b => exact .inr (.inl ⟨rest, b, rfl⟩)
    | bindSink b => exact .inr (.inr (.inl ⟨rest, b, rfl⟩))
    | bindSsink b => exact .inr (.inr (.inr (.inl ⟨rest, b, rfl⟩)))
    | bindSrc b => exact .inr (.inr (.inr (.inr (.inl ⟨rest, b, rfl⟩))))
    | reset => exact .inr (.inr (.inr (.inr (.inr ⟨rest, rfl⟩))))

end Sys2Proof.Machine
end

