-- ==== Sys2Proof/Laws/PerInstr.lean ====
section
/-!
SUPPORT. Sys2Proof/Laws/PerInstr.lean: the family RowMatch: the encoding of an instruction matches its row of
spec/opcode_table.json, mask and match, and has the row's length (30_encoding.md R78).
-/

namespace Sys2Proof.Laws.RowMatch

/-- The words of a code carry the pattern of a row: over a request word, over the header byte with the form's whole length,
or, for the core's row without bits, always. -/
def FitsRow (c : Code) (mask pattern totalLen : Nat) : Prop :=
  match c with
  | .request w => w &&& BitVec.ofNat 67 mask = BitVec.ofNat 67 pattern
  | .core _ _ _ => mask = 0 ∧ pattern = 0
  | .wire bytes => (bytes.headD 0x00#8).toNat &&& mask = pattern ∧ bytes.length = totalLen

/-- Mask, match and length of an instruction's row; the length is 0 where the row gives none. -/
def row (i : Instr) : Nat × Nat × Nat :=
  match i with
  | .size _ => (0x70000000000000000, 0x00000000000000000, 0)
  | .hsize _ => (0x70000000000000000, 0x10000000000000000, 0)
  | .enc _ => (0x70000000000000000, 0x20000000000000000, 0)
  | .encs _ => (0x70000000000000000, 0x30000000000000000, 0)
  | .dec _ => (0x70000000000000000, 0x40000000000000000, 0)
  | .decs _ => (0x70000000000000000, 0x50000000000000000, 0)
  | .illegal6 _ => (0x70000000000000000, 0x60000000000000000, 0)
  | .illegal7 _ => (0x70000000000000000, 0x70000000000000000, 0)
  | .decb _ _ _ => (0x0, 0x0, 0)
  | .ilint1_00 _ => (0x80, 0x00, 1)
  | .ilint1_80 _ => (0xC0, 0x80, 1)
  | .ilint1_C0 _ => (0xE0, 0xC0, 1)
  | .ilint1_E0 _ => (0xF0, 0xE0, 1)
  | .ilint1_F0 _ => (0xF8, 0xF0, 1)
  | .ilint2 _ => (0xFF, 0xF8, 2)
  | .ilint3 _ => (0xFF, 0xF9, 3)
  | .ilint4 _ => (0xFF, 0xFA, 4)
  | .ilint5 _ => (0xFF, 0xFB, 5)
  | .ilint6 _ => (0xFF, 0xFC, 6)
  | .ilint7 _ => (0xFF, 0xFD, 7)
  | .ilint8 _ => (0xFF, 0xFE, 8)
  | .ilint9 _ => (0xFF, 0xFF, 9)

/-- A well-formed instruction's words carry the pattern of its row. -/
def Statement (i : Instr) : Prop := i.WellFormed → FitsRow (encode i) (row i).1 (row i).2.1 (row i).2.2

/-- Under the mask of the `REQ` rows a request word keeps its select field and nothing of its operand. -/
theorem request_masked (op : Select) (x : Value) :
    requestWord op x &&& 0x70000000000000000#67 = op ++ 0#64 := by
  have h : op &&& 7#3 = op := by revert op; decide
  rw [show (0x70000000000000000#67) = 7#3 ++ 0#64 by decide, requestWord, BitVec.and_append, h, BitVec.and_zero]

theorem size (x : Value) : Statement (.size x) := fun _ =>
  (request_masked 0#3 x).trans (by simp only [row]; decide)

theorem hsize (x : Value) : Statement (.hsize x) := fun _ =>
  (request_masked 1#3 x).trans (by simp only [row]; decide)

theorem enc (x : Value) : Statement (.enc x) := fun _ =>
  (request_masked 2#3 x).trans (by simp only [row]; decide)

theorem encs (x : Value) : Statement (.encs x) := fun _ =>
  (request_masked 3#3 x).trans (by simp only [row]; decide)

theorem dec (x : Value) : Statement (.dec x) := fun _ =>
  (request_masked 4#3 x).trans (by simp only [row]; decide)

theorem decs (x : Value) : Statement (.decs x) := fun _ =>
  (request_masked 5#3 x).trans (by simp only [row]; decide)

theorem illegal6 (x : Value) : Statement (.illegal6 x) := fun _ =>
  (request_masked 6#3 x).trans (by simp only [row]; decide)

theorem illegal7 (x : Value) : Statement (.illegal7 x) := fun _ =>
  (request_masked 7#3 x).trans (by simp only [row]; decide)

theorem decb (header : Byte) (expectedSize : Nat) (body : List Byte) : Statement (.decb header expectedSize body) :=
  fun _ => ⟨rfl, rfl⟩

theorem ilint1_00 (v : BitVec 7) : Statement (.ilint1_00 v) := fun _ => ⟨by
  show (0b0#1 ++ v).toNat &&& 0x80 = 0x00
  revert v; decide, rfl⟩

theorem ilint1_80 (v : BitVec 6) : Statement (.ilint1_80 v) := fun _ => ⟨by
  show (0b10#2 ++ v).toNat &&& 0xC0 = 0x80
  revert v; decide, rfl⟩

theorem ilint1_C0 (v : BitVec 5) : Statement (.ilint1_C0 v) := fun _ => ⟨by
  show (0b110#3 ++ v).toNat &&& 0xE0 = 0xC0
  revert v; decide, rfl⟩

theorem ilint1_E0 (v : BitVec 4) : Statement (.ilint1_E0 v) := fun _ => ⟨by
  show (0b1110#4 ++ v).toNat &&& 0xF0 = 0xE0
  revert v; decide, rfl⟩

theorem ilint1_F0 (v : BitVec 3) : Statement (.ilint1_F0 v) := fun _ => ⟨by
  show (0b11110#5 ++ v).toNat &&& 0xF8 = 0xF0
  revert v; decide, rfl⟩

theorem ilint2 (body : List Byte) : Statement (.ilint2 body) := fun h => ⟨by simp [row], by
  simpa [Instr.WellFormed, Instr.wellFormed, row] using h⟩

theorem ilint3 (body : List Byte) : Statement (.ilint3 body) := fun h => ⟨by simp [row], by
  simpa [Instr.WellFormed, Instr.wellFormed, row] using h⟩

theorem ilint4 (body : List Byte) : Statement (.ilint4 body) := fun h => ⟨by simp [row], by
  simpa [Instr.WellFormed, Instr.wellFormed, row] using h⟩

theorem ilint5 (body : List Byte) : Statement (.ilint5 body) := fun h => ⟨by simp [row], by
  simpa [Instr.WellFormed, Instr.wellFormed, row] using h⟩

theorem ilint6 (body : List Byte) : Statement (.ilint6 body) := fun h => ⟨by simp [row], by
  simpa [Instr.WellFormed, Instr.wellFormed, row] using h⟩

theorem ilint7 (body : List Byte) : Statement (.ilint7 body) := fun h => ⟨by simp [row], by
  simpa [Instr.WellFormed, Instr.wellFormed, row] using h⟩

theorem ilint8 (body : List Byte) : Statement (.ilint8 body) := fun h => ⟨by simp [row], by
  simpa [Instr.WellFormed, Instr.wellFormed, row] using h⟩

theorem ilint9 (body : List Byte) : Statement (.ilint9 body) := fun h => ⟨by simp [row], by
  simpa [Instr.WellFormed, Instr.wellFormed, row] using h⟩

end Sys2Proof.Laws.RowMatch
end

