-- ==== Sys2Proof/Laws/Wire.lean ====
section
/-!
SUPPORT. Sys2Proof/Laws/Wire.lean: which row a header byte matches, and the fields of request words (30_encoding.md R63,
R70, R78).
-/

namespace Sys2Proof

open Sys2Proof.Machine

@[simp] theorem selectOf_append (op : Select) (x : Value) : selectOf (op ++ x) = op :=
  BitVec.extractLsb'_append_eq_left

@[simp] theorem operandOf_append (op : Select) (x : Value) : operandOf (op ++ x) = x :=
  BitVec.extractLsb'_append_eq_right

/-- The single-byte rows: below BASE exactly one of the five patterns fits, and its Value bits with the pattern's prefix
are the byte. -/
theorem wireInstr_single (h : Byte) (body : List Byte) (hh : h.toNat < 248) :
    (∃ v, wireInstr h body = .ilint1_00 v ∧ h = 0b0#1 ++ v) ∨
    (∃ v, wireInstr h body = .ilint1_80 v ∧ h = 0b10#2 ++ v) ∨
    (∃ v, wireInstr h body = .ilint1_C0 v ∧ h = 0b110#3 ++ v) ∨
    (∃ v, wireInstr h body = .ilint1_E0 v ∧ h = 0b1110#4 ++ v) ∨
    (∃ v, wireInstr h body = .ilint1_F0 v ∧ h = 0b11110#5 ++ v) := by
  unfold wireInstr
  by_cases a : h &&& 0x80#8 = 0x00#8
  · rw [if_pos a]; exact .inl ⟨_, rfl, by revert h; decide⟩
  by_cases b : h &&& 0xC0#8 = 0x80#8
  · rw [if_neg a, if_pos b]; exact .inr (.inl ⟨_, rfl, by revert h; decide⟩)
  by_cases c : h &&& 0xE0#8 = 0xC0#8
  · rw [if_neg a, if_neg b, if_pos c]; exact .inr (.inr (.inl ⟨_, rfl, by revert h; decide⟩))
  by_cases d : h &&& 0xF0#8 = 0xE0#8
  · rw [if_neg a, if_neg b, if_neg c, if_pos d]; exact .inr (.inr (.inr (.inl ⟨_, rfl, by revert h; decide⟩)))
  have e : h &&& 0xF8#8 = 0xF0#8 := by revert h; decide
  rw [if_neg a, if_neg b, if_neg c, if_neg d, if_pos e]
  exact .inr (.inr (.inr (.inr ⟨_, rfl, by revert h; decide⟩)))

/-- The multi-byte rows: from BASE on the byte is the row. -/
theorem wireInstr_multi (h : Byte) (body : List Byte) (hh : 248 ≤ h.toNat) :
    (h = 0xF8#8 ∧ wireInstr h body = .ilint2 body) ∨ (h = 0xF9#8 ∧ wireInstr h body = .ilint3 body) ∨
    (h = 0xFA#8 ∧ wireInstr h body = .ilint4 body) ∨ (h = 0xFB#8 ∧ wireInstr h body = .ilint5 body) ∨
    (h = 0xFC#8 ∧ wireInstr h body = .ilint6 body) ∨ (h = 0xFD#8 ∧ wireInstr h body = .ilint7 body) ∨
    (h = 0xFE#8 ∧ wireInstr h body = .ilint8 body) ∨ (h = 0xFF#8 ∧ wireInstr h body = .ilint9 body) := by
  have hc : h = 0xF8#8 ∨ h = 0xF9#8 ∨ h = 0xFA#8 ∨ h = 0xFB#8 ∨ h = 0xFC#8 ∨ h = 0xFD#8 ∨ h = 0xFE#8 ∨ h = 0xFF#8 := by
    revert h; decide
  rcases hc with rfl | rfl | rfl | rfl | rfl | rfl | rfl | rfl <;> simp <;> rfl

/-- A multi-byte row's instruction is the form handed to the core. -/
theorem exec_wireInstr_multi (h : Byte) (body : List Byte) (s : State) (hh : 248 ≤ h.toNat) :
    exec (wireInstr h body) s = multiByteForm h body s := by
  rcases wireInstr_multi h body hh with ⟨rfl, e⟩ | ⟨rfl, e⟩ | ⟨rfl, e⟩ | ⟨rfl, e⟩ | ⟨rfl, e⟩ | ⟨rfl, e⟩ | ⟨rfl, e⟩ |
    ⟨rfl, e⟩ <;> rw [e] <;> rfl

end Sys2Proof
end

