-- ==== Sys2Proof/Tests/Slice0.lean ====
section
/-!
SUPPORT. Sys2Proof/Tests/Slice0.lean: small tests, each of one step or one decoding; expected results are the vectors of
95_test_vectors.md (the table and row named beside each) or are written out from the rule cited. After them, for each
statement with hypotheses, a witness that meets them.
-/

namespace Sys2Proof.Tests

open Sys2Proof.Machine Sys2Proof.Safety

/-- The state after, where there is one. -/
def after (o : Host.Outcome State Fault Refusal) : Option State :=
  match o with
  | .next t => some t
  | .fault _ => none
  | .refused _ => none

/-- The response of a step. -/
def reply (o : Host.Outcome State Fault Refusal) : Option Response := (after o).bind (·.response)

/-- The refusal of a step. -/
def refusal (o : Host.Outcome State Fault Refusal) : Option Refusal :=
  match o with
  | .next _ => none
  | .fault _ => none
  | .refused r => some r

/-- Reset with some bytes in `BUF`. -/
def withBuf (b : List Byte) : State := { State.reset with buf := b }

/-- Reset with some bytes in `SRC`. -/
def withSrc (b : List Byte) : State := { State.reset with src := b }

/-! ### Well-formedness: one ill-formed term for each check -/

theorem test_wf_decb_header : Instr.wellFormed (.decb 0xF7#8 2 [0x00#8]) = false := by decide

theorem test_wf_decb_size : Instr.wellFormed (.decb 0xF9#8 2 [0x01#8]) = false := by decide

theorem test_wf_decb_body : Instr.wellFormed (.decb 0xF8#8 2 [0x01#8, 0x02#8]) = false := by decide

theorem test_wf_decb_short_body_is_a_call : Instr.wellFormed (.decb 0xF9#8 3 [0x01#8]) = true := by decide

theorem test_wf_ilint2 : Instr.wellFormed (.ilint2 (List.replicate 2 0x01#8)) = false := by decide

theorem test_wf_ilint3 : Instr.wellFormed (.ilint3 (List.replicate 3 0x01#8)) = false := by decide

theorem test_wf_ilint4 : Instr.wellFormed (.ilint4 (List.replicate 4 0x01#8)) = false := by decide

theorem test_wf_ilint5 : Instr.wellFormed (.ilint5 (List.replicate 5 0x01#8)) = false := by decide

theorem test_wf_ilint6 : Instr.wellFormed (.ilint6 (List.replicate 6 0x01#8)) = false := by decide

theorem test_wf_ilint7 : Instr.wellFormed (.ilint7 (List.replicate 7 0x01#8)) = false := by decide

theorem test_wf_ilint8 : Instr.wellFormed (.ilint8 (List.replicate 8 0x01#8)) = false := by decide

theorem test_wf_ilint9 : Instr.wellFormed (.ilint9 (List.replicate 9 0x01#8)) = false := by decide

/-! ### Decoding: words written out from the spec's encodings (D-REQ; R63; R71) -/

/-- D-REQ 1. -/
theorem test_decode_size : decodeRequest 0x0000000000000021B#67 = .size 0x21B#64 := by decide

/-- D-REQ 2. -/
theorem test_decode_hsize : decodeRequest 0x100000000000000F9#67 = .hsize 0xF9#64 := by decide

/-- D-REQ 4. -/
theorem test_decode_enc : decodeRequest 0x2000000000000021B#67 = .enc 0x21B#64 := by decide

/-- D-REQ 5. -/
theorem test_decode_encs : decodeRequest 0x3FFFFFFFFFFFFFFFF#67 = .encs 0xFFFFFFFFFFFFFFFF#64 := by decide

/-- the line under D-REQ. -/
theorem test_decode_dec : decodeRequest 0x4000000000000ABCD#67 = .dec 0xABCD#64 := by decide

/-- D-REQ 8. -/
theorem test_decode_decs : decodeRequest 0x50000000000000000#67 = .decs 0#64 := by decide

/-- D-REQ 11. -/
theorem test_decode_illegal6 : decodeRequest 0x60000000000000000#67 = .illegal6 0#64 := by decide

/-- D-REQ 12. -/
theorem test_decode_illegal7 : decodeRequest 0x7000000000000021B#67 = .illegal7 0x21B#64 := by decide

/-- The row's pattern in bits. -/
theorem test_decode_ilint1_00 : decode (.wire [0b01111111#8, 0xAA#8]) = .ok (.ilint1_00 0b1111111#7) := by rfl

/-- The row's pattern in bits. -/
theorem test_decode_ilint1_80 : decode (.wire [0b10000001#8, 0xAA#8]) = .ok (.ilint1_80 0b000001#6) := by rfl

/-- The row's pattern in bits. -/
theorem test_decode_ilint1_C0 : decode (.wire [0b11010000#8, 0xAA#8]) = .ok (.ilint1_C0 0b10000#5) := by rfl

/-- The row's pattern in bits. -/
theorem test_decode_ilint1_E0 : decode (.wire [0b11100101#8, 0xAA#8]) = .ok (.ilint1_E0 0b0101#4) := by rfl

/-- The row's pattern in bits. -/
theorem test_decode_ilint1_F0 : decode (.wire [0b11110111#8, 0xAA#8]) = .ok (.ilint1_F0 0b111#3) := by rfl

/-- Header 11111000, then 1 body byte. -/
theorem test_decode_ilint2 : decode (.wire ([0b11111000#8] ++ [0x00#8])) = .ok (.ilint2 [0x00#8]) := by rfl

/-- Header 11111001, then 2 body bytes. -/
theorem test_decode_ilint3 : decode (.wire ([0b11111001#8] ++ [0x01#8, 0x23#8])) = .ok (.ilint3 [0x01#8, 0x23#8]) := by rfl

/-- Header 11111010, then 3 body bytes. -/
theorem test_decode_ilint4 : decode (.wire ([0b11111010#8] ++ [0x01#8, 0x00#8, 0x00#8])) = .ok (.ilint4 [0x01#8, 0x00#8, 0x00#8]) := by rfl

/-- Header 11111011, then 4 body bytes. -/
theorem test_decode_ilint5 : decode (.wire ([0b11111011#8] ++ [0x01#8, 0x00#8, 0x00#8, 0x00#8])) = .ok (.ilint5 [0x01#8, 0x00#8, 0x00#8, 0x00#8]) := by rfl

/-- Header 11111100, then 5 body bytes. -/
theorem test_decode_ilint6 : decode (.wire ([0b11111100#8] ++ [0x01#8, 0x00#8, 0x00#8, 0x00#8, 0x00#8])) = .ok (.ilint6 [0x01#8, 0x00#8, 0x00#8, 0x00#8, 0x00#8]) := by rfl

/-- Header 11111101, then 6 body bytes. -/
theorem test_decode_ilint7 : decode (.wire ([0b11111101#8] ++ [0x01#8, 0x00#8, 0x00#8, 0x00#8, 0x00#8, 0x00#8])) = .ok (.ilint7 [0x01#8, 0x00#8, 0x00#8, 0x00#8, 0x00#8, 0x00#8]) := by rfl

/-- Header 11111110, then 7 body bytes. -/
theorem test_decode_ilint8 : decode (.wire ([0b11111110#8] ++ [0x01#8, 0x00#8, 0x00#8, 0x00#8, 0x00#8, 0x00#8, 0x00#8])) = .ok (.ilint8 [0x01#8, 0x00#8, 0x00#8, 0x00#8, 0x00#8, 0x00#8, 0x00#8]) := by rfl

/-- Header 11111111, then 8 body bytes. -/
theorem test_decode_ilint9 : decode (.wire ([0b11111111#8] ++ [0xFF#8, 0xFF#8, 0xFF#8, 0xFF#8, 0xFF#8, 0xFF#8, 0xFF#8, 0x07#8])) = .ok (.ilint9 [0xFF#8, 0xFF#8, 0xFF#8, 0xFF#8, 0xFF#8, 0xFF#8, 0xFF#8, 0x07#8]) := by rfl

/-- The core's row has no bits. -/
theorem test_decode_decb : decodeTableWord 0 0 = some (.decb 0xF8#8 2 [0x00#8]) := by decide

theorem test_decode_rejects_empty : decode (.wire []) = .error .noHeader := by rfl

theorem test_decode_rejects_truncated : decode (.wire [0xF9#8, 0x00#8]) = .error .truncated := by rfl

theorem test_table_word_of_no_row : decodeTableWord 16 0xF8 = none := by decide

theorem test_table_word_ilint3 : decodeTableWord 8 0xF9 = some (.ilint3 [0x00#8, 0x00#8]) := by decide

theorem test_table_word_enc : decodeTableWord 72 0x20000000000000000 = some (.enc 0#64) := by decide

/-! ### One transaction at a time -/

/-- D-SIZE 10. -/
theorem test_size_top_of_band_2 :
    reply (exec (.size 0x1F7#64) State.reset) = some (.ok 2#4 none) := by decide

/-- D-SIZE 29. -/
theorem test_size_bottom_of_band_9 :
    reply (exec (.size 0x1000000000000F8#64) State.reset) = some (.ok 9#4 none) := by decide

/-- D-HSIZE 11. -/
theorem test_hsize_ff :
    reply (exec (.hsize 0xFF#64) State.reset) = some (.ok 9#4 none) := by decide

/-- D-HSIZE 14. -/
theorem test_hsize_upper_bits :
    reply (exec (.hsize 0xFFFFFFFFFFFFFFF8#64) State.reset) = some (.error .domain) := by decide

/-- The line under D-ENC: append, not overwrite. -/
theorem test_enc_appends :
    (after (exec (.enc 0x21B#64) { State.reset with sink := [0xAA#8, 0xBB#8] })).map (·.sink) =
      some [0xAA#8, 0xBB#8, 0xF9#8, 0x01#8, 0x23#8] := by decide

/-- R47: the header, then the body (D-ENC 28). -/
theorem test_enc_two_appends :
    (after (exec (.enc 0x123456789ABCDEF0#64) State.reset)).map (·.accesses) =
      some [.sinkAppend [0xFF#8], .sinkAppend [0x12#8, 0x34#8, 0x56#8, 0x78#8, 0x9A#8, 0xBC#8, 0xDD#8, 0xF8#8]] := by decide

/-- D-ENC 6, R101: one event of two bytes. -/
theorem test_encs_one_event :
    (after (exec (.encs 0xF8#64) State.reset)).map (·.accesses) = some [.streamWrite [0xF8#8, 0x00#8]] := by decide

/-- D-ENC 31. -/
theorem test_encs_largest :
    (after (exec (.encs 0xFFFFFFFFFFFFFFFF#64) State.reset)).map (·.ssink) =
      some [0xFF#8, 0xFF#8, 0xFF#8, 0xFF#8, 0xFF#8, 0xFF#8, 0xFF#8, 0xFF#8, 0x07#8] := by decide

/-- D-DEC 12. -/
theorem test_dec_trailing_bytes :
    reply (exec (.dec 0#64) (withBuf [0xF9#8, 0x01#8, 0x23#8, 0x99#8, 0x99#8])) = some (.ok 3#4 (some 0x21B#64)) := by decide

/-- D-DEC 10. -/
theorem test_dec_truncated_before_noncanonical :
    reply (exec (.dec 0#64) (withBuf [0xF9#8, 0x00#8])) = some (.error .truncated) := by decide

/-- D-DECS 8. -/
theorem test_decs_consumes_malformed :
    (after (exec (.decs 0#64) (withSrc [0xF9#8, 0x00#8, 0x00#8, 0x05#8]))).map (fun t => (t.response, t.src)) =
      some (some (.error .noncanonical), [0x05#8]) := by decide

/-- D-DECS 12. -/
theorem test_decs_truncated_takes_all :
    (after (exec (.decs 0#64) (withSrc [0xFF#8, 0x00#8, 0x00#8]))).map (fun t => (t.response, t.src)) =
      some (some (.error .truncated), []) := by decide

/-- D-REQ 11. -/
theorem test_illegal6 :
    reply (exec (.illegal6 0#64) State.reset) = some (.error .illegalOp) := by decide

/-- D-REQ 12. -/
theorem test_illegal7 :
    reply (exec (.illegal7 0x21B#64) State.reset) = some (.error .illegalOp) := by decide

/-- D-DECB 17. -/
theorem test_decb_smallest_overflow :
    reply (exec (.decb 0xFF#8 9 [0xFF#8, 0xFF#8, 0xFF#8, 0xFF#8, 0xFF#8, 0xFF#8, 0xFF#8, 0x08#8]) State.reset) = some (.error .overflow) := by decide

/-- U1: a body longer than announced. -/
theorem test_decb_outside_contract :
    refusal (exec (.decb 0xF8#8 2 [0x01#8, 0x02#8]) State.reset) = some .outsideCoreContract := by decide

/-- R61: the header byte is the Value. -/
theorem test_ilint1_00 :
    reply (exec (.ilint1_00 0b1111111#7) State.reset) = some (.ok 1#4 (some 0x7F#64)) := by decide

/-- R61: the header byte is the Value. -/
theorem test_ilint1_80 :
    reply (exec (.ilint1_80 0b000000#6) State.reset) = some (.ok 1#4 (some 0x80#64)) := by decide

/-- R61: the header byte is the Value. -/
theorem test_ilint1_C0 :
    reply (exec (.ilint1_C0 0b10000#5) State.reset) = some (.ok 1#4 (some 0xD0#64)) := by decide

/-- R61: the header byte is the Value. -/
theorem test_ilint1_E0 :
    reply (exec (.ilint1_E0 0b0101#4) State.reset) = some (.ok 1#4 (some 0xE5#64)) := by decide

/-- R61: the header byte is the Value. -/
theorem test_ilint1_F0 :
    reply (exec (.ilint1_F0 0b111#3) State.reset) = some (.ok 1#4 (some 0xF7#64)) := by decide

/-- D-DECB 2. -/
theorem test_ilint2 :
    reply (exec (.ilint2 [0xFF#8]) State.reset) = some (.ok 2#4 (some 0x1F7#64)) := by decide

/-- D-DECB 8. -/
theorem test_ilint3 :
    reply (exec (.ilint3 [0x00#8, 0xFF#8]) State.reset) = some (.error .noncanonical) := by decide

/-- D-DECB 11. -/
theorem test_ilint4 :
    reply (exec (.ilint4 [0x01#8, 0x00#8, 0x00#8]) State.reset) = some (.ok 4#4 (some 0x100F8#64)) := by decide

/-- D-RT 7. -/
theorem test_ilint5 :
    reply (exec (.ilint5 [0x01#8, 0x00#8, 0x00#8, 0x00#8]) State.reset) = some (.ok 5#4 (some 0x10000F8#64)) := by decide

/-- D-RT 8. -/
theorem test_ilint6 :
    reply (exec (.ilint6 [0x01#8, 0x00#8, 0x00#8, 0x00#8, 0x00#8]) State.reset) = some (.ok 6#4 (some 0x1000000F8#64)) := by decide

/-- D-RT 9. -/
theorem test_ilint7 :
    reply (exec (.ilint7 [0x01#8, 0x00#8, 0x00#8, 0x00#8, 0x00#8, 0x00#8]) State.reset) = some (.ok 7#4 (some 0x100000000F8#64)) := by decide

/-- D-DEC 25. -/
theorem test_ilint8 :
    reply (exec (.ilint8 [0xFF#8, 0xFF#8, 0xFF#8, 0xFF#8, 0xFF#8, 0xFF#8, 0xFF#8]) State.reset) = some (.ok 8#4 (some 0x1000000000000F7#64)) := by decide

/-- D-DECB 16. -/
theorem test_ilint9 :
    reply (exec (.ilint9 [0xFF#8, 0xFF#8, 0xFF#8, 0xFF#8, 0xFF#8, 0xFF#8, 0xFF#8, 0x07#8]) State.reset) = some (.ok 9#4 (some 0xFFFFFFFFFFFFFFFF#64)) := by decide

/-- The whole response word under D-REQ. -/
theorem test_response_word :
    carries 0x03000000000000021B#71 (.ok 3#4 (some 0x21B#64)) = true := by decide

/-- withFetchWord: a DECS meets the form F9 00 00. -/
theorem test_step_of_placed_form :
    reply (step (State.reset.withFetchWord 8 0xF9)) = some (.error .noncanonical) := by decide

/-- withFetchWord: the request runs. -/
theorem test_step_of_placed_request :
    reply (step (State.reset.withFetchWord 67 0x0000000000000021B)) = some (.ok 3#4 none) := by decide

/-! ### Witnesses: for each statement with hypotheses, operands and a state that meet them -/

theorem witness_ResetChangesNothingARuleReads :
    ({ State.reset with inputs := [.reset] } : State).inputs = [.reset] := by decide

theorem witness_IdleWithoutRequest :
    State.reset.inputs = [] := by decide

theorem witness_EnvironmentMovesChangeOneSpace_Buf :
    ({ State.reset with inputs := [.bindBuf [0xF9#8]] } : State).inputs = .bindBuf [0xF9#8] :: [] := by decide

theorem witness_EnvironmentMovesChangeOneSpace_Sink :
    ({ State.reset with inputs := [.bindSink [0xF9#8]] } : State).inputs = .bindSink [0xF9#8] :: [] := by decide

theorem witness_EnvironmentMovesChangeOneSpace_Ssink :
    ({ State.reset with inputs := [.bindSsink [0xF9#8]] } : State).inputs = .bindSsink [0xF9#8] :: [] := by decide

theorem witness_EnvironmentMovesChangeOneSpace_Src :
    ({ State.reset with inputs := [.bindSrc [0xF9#8]] } : State).inputs = .bindSrc [0xF9#8] :: [] := by decide

theorem witness_StepRunsDecodedRequest :
    ({ State.reset with inputs := [.request 0x0000000000000021B#67] } : State).inputs = .request 0x0000000000000021B#67 :: [] := by decide

theorem witness_WellFormedInstructionsComplete :
    Instr.WellFormed (.decb 0xF9#8 3 [0x01#8]) := by decide

/-- Also for the other statements whose hypothesis is that an instruction goes on (OperationsReachOnlyTheirSpace,
SpacesGrowAndShrinkOnlyAtTheirEnds, DecRepeatsItsAnswer). -/
theorem witness_OneResponsePerTransaction :
    (after (exec (.dec 0#64) (withBuf [0xF8#8, 0x00#8]))).isSome = true := by decide

/-- A state that holds an event already, and a step from it. -/
theorem witness_StepKeepsWholeWriteEvents :
    WriteEventsWhole { State.reset with accesses := [.streamWrite [0xF8#8, 0x00#8]] } ∧
      (after (step { State.reset with accesses := [.streamWrite [0xF8#8, 0x00#8]], inputs := [.request 0x3FFFFFFFFFFFFFFFF#67] })).isSome = true := by decide

theorem witness_StepKeepsResponsesSound :
    ResponsesSound { State.reset with response := some (.ok 9#4 none), responses := [.ok 1#4 none, .ok 9#4 none] } ∧
      (after (step { State.reset with response := some (.ok 9#4 none), responses := [.ok 1#4 none, .ok 9#4 none] })).isSome = true := by decide

theorem witness_PlacedWordRuns :
    0xFF < 2 ^ 8 ∧ 67 ≤ 67 ∧ 72 ≤ 72 ∧ 0x7FFFFFFFFFFFFFFFF < 2 ^ 67 := by decide

theorem witness_SizeIsBandLength_header :
    InBand 1 (0xF7#64).toNat ∧ InBand 9 (0xFFFFFFFFFFFFFFFF#64).toNat := by decide

theorem witness_SizeIsBandLength_monotone :
    InBand 1 0xF7 ∧ InBand 2 0xF8 ∧ 0xF7 ≤ 0xF8 := by decide

theorem witness_SizeIsBandLength_base :
    0xF8 ≤ (0xF8#64).toNat ∧ (0xF8#64).toNat = 0xF8 := by decide

/-- The largest index, 7. -/
theorem witness_SizeIsBandLength_byte :
    256 ^ 7 ≤ (0xFFFFFFFFFFFFFFFF#64).toNat - 0xF8 ∧ (0xFFFFFFFFFFFFFFFF#64).toNat - 0xF8 < 256 ^ (7 + 1) := by decide

/-- The values where the clauses meet. -/
theorem witness_HsizeIsAnnouncedLength :
    (0xF7#64).toNat < 0xF8 ∧ 0xF8 ≤ (0xF8#64).toNat ∧ (0xFF#64).toNat ≤ 255 ∧ 255 < (0x100#64).toNat := by decide

theorem witness_BigEndianConversion :
    0xFFFF < 256 ^ 2 ∧ 1 < 2 ∧ [0xFF#8, 0xFF#8].length = 2 ∧ be [0xFF#8, 0xFF#8] = 0xFFFF := by decide

theorem witness_EncFormIsValidFormOfItsValue :
    3 ≤ (encForm 0x1F8#64).length := by decide

/-- The last old byte and the first byte past the stored ones. -/
theorem witness_SinkBytesStayInPlace :
    (after (exec (.enc 0x21B#64) { State.reset with sink := [0xAA#8] })).isSome = true ∧ 0 < [0xAA#8].length ∧
      [0xAA#8].length + (encForm 0x21B#64).length ≤ 4 := by decide

theorem witness_SinkBytesStayInPlace_encs :
    (after (exec (.encs 0x21B#64) { State.reset with ssink := [0xAA#8] })).isSome = true := by decide

theorem witness_DecbChecksInOrder_outside :
    ¬ CoreContract 0xF7#8 2 [] := by decide

theorem witness_DecbChecksInOrder_truncated :
    CoreContract 0xF8#8 2 [] ∧ ([] : List Byte).length ≠ 2 - 1 := by decide

theorem witness_DecbChecksInOrder_noncanonical :
    CoreContract 0xF9#8 3 [0x00#8, 0xFF#8] ∧ [0x00#8, 0xFF#8].length = 3 - 1 ∧ 1 < [0x00#8, 0xFF#8].length ∧
      [0x00#8, 0xFF#8][0]? = some 0x00#8 := by decide

/-- D-DECB 17; also for OverflowNeedsEightByteBody. -/
theorem witness_DecbChecksInOrder_overflow :
    CoreContract 0xFF#8 9 [0xFF#8, 0xFF#8, 0xFF#8, 0xFF#8, 0xFF#8, 0xFF#8, 0xFF#8, 0x08#8] ∧ [0xFF#8, 0xFF#8, 0xFF#8, 0xFF#8, 0xFF#8, 0xFF#8, 0xFF#8, 0x08#8].length = 9 - 1 ∧
      [0xFF#8, 0xFF#8, 0xFF#8, 0xFF#8, 0xFF#8, 0xFF#8, 0xFF#8, 0x08#8][0]? ≠ some 0x00#8 ∧ 2 ^ 64 - 1 < be [0xFF#8, 0xFF#8, 0xFF#8, 0xFF#8, 0xFF#8, 0xFF#8, 0xFF#8, 0x08#8] + 0xF8 := by decide

/-- D-DECB 1 and 16. -/
theorem witness_DecbChecksInOrder_ok :
    CoreContract 0xF8#8 2 [0x00#8] ∧ be [0x00#8] + 0xF8 ≤ 2 ^ 64 - 1 ∧
      CoreContract 0xFF#8 9 [0xFF#8, 0xFF#8, 0xFF#8, 0xFF#8, 0xFF#8, 0xFF#8, 0xFF#8, 0x07#8] ∧ be [0xFF#8, 0xFF#8, 0xFF#8, 0xFF#8, 0xFF#8, 0xFF#8, 0xFF#8, 0x07#8] + 0xF8 = 2 ^ 64 - 1 := by decide

/-- The step answers the overflow. -/
theorem witness_OverflowNeedsEightByteBody :
    reply (exec (.decb 0xFF#8 9 [0xFF#8, 0xFF#8, 0xFF#8, 0xFF#8, 0xFF#8, 0xFF#8, 0xFF#8, 0x08#8]) State.reset) = some (.error .overflow) := by decide

/-- A header with no byte after it, and one with the longest body. -/
theorem witness_FrontEndKeepsCoreContract :
    0xF8 ≤ (0xF8#8).toNat ∧ (withBuf [0xF8#8]).buf = 0xF8#8 :: [] ∧ (withSrc [0xF8#8]).src = 0xF8#8 :: [] ∧
      0xF8 ≤ (0xFF#8).toNat ∧ (withSrc (0xFF#8 :: List.replicate 9 0x01#8)).src = 0xFF#8 :: List.replicate 9 0x01#8 := by decide

/-- Also for DecsAnswersByClass and InputClassesPartition. -/
theorem witness_DecAnswersByClass_Empty :
    EmptyInput (withBuf []).buf ∧ EmptyInput (withSrc []).src := by decide

/-- Also for DecsAnswersByClass and InputClassesPartition. -/
theorem witness_DecAnswersByClass_Truncated :
    TruncatedInput (withBuf [0xF9#8, 0x00#8]).buf ∧ TruncatedInput (withSrc [0xF9#8, 0x00#8]).src := by decide

/-- Also for DecsAnswersByClass and InputClassesPartition. -/
theorem witness_DecAnswersByClass_Noncanonical :
    NoncanonicalInput (withBuf [0xF9#8, 0x00#8, 0x00#8]).buf ∧ NoncanonicalInput (withSrc [0xF9#8, 0x00#8, 0x00#8]).src := by decide

/-- Also for DecsAnswersByClass and InputClassesPartition. -/
theorem witness_DecAnswersByClass_Overflow :
    OverflowInput (withBuf [0xFF#8, 0xFF#8, 0xFF#8, 0xFF#8, 0xFF#8, 0xFF#8, 0xFF#8, 0xFF#8, 0x08#8]).buf ∧ OverflowInput (withSrc [0xFF#8, 0xFF#8, 0xFF#8, 0xFF#8, 0xFF#8, 0xFF#8, 0xFF#8, 0xFF#8, 0x08#8]).src := by decide

/-- Also for DecsAnswersByClass and InputClassesPartition: the form of BASE, with bytes after it. -/
theorem witness_DecAnswersByClass_valid :
    (withBuf [0xF8#8, 0x00#8, 0xF7#8]).buf = [0xF8#8, 0x00#8] ++ [0xF7#8] ∧ (withSrc [0xF8#8, 0x00#8, 0xF7#8]).src = [0xF8#8, 0x00#8] ++ [0xF7#8] ∧
      ValidForm [0xF8#8, 0x00#8] := by decide

/-- The other case of a valid form, at its top. -/
theorem witness_ValidForm_single :
    ValidForm [0xF7#8] ∧ ¬ ValidForm [0xF8#8] := by decide

theorem witness_DecReadsOnlyAnnouncedPrefix :
    [0xF8#8, 0x01#8, 0x02#8].take (formLength (headNat [0xF8#8, 0x01#8, 0x02#8])) = [0xF8#8, 0x01#8, 0x03#8, 0x04#8].take (formLength (headNat [0xF8#8, 0x01#8, 0x02#8])) := by decide

theorem witness_TrailingBytesDoNotMatter :
    decForm [0xF9#8, 0x00#8, 0x00#8] ≠ .error .truncated ∧ decForm [0xF9#8, 0x00#8, 0x00#8] ≠ .error .noHeader := by decide

/-- Both ends of the range. -/
theorem witness_CutFormsAreTruncated :
    0 < (encForm 0xF7#64).length ∧ 8 < (encForm 0xFFFFFFFFFFFFFFFF#64).length := by decide

theorem witness_DecRepeatsItsAnswer :
    ((after (exec (.dec 0#64) (withBuf [0xF8#8, 0x00#8]))).bind fun t => after (exec (.dec 1#64) t)).isSome = true := by decide

theorem witness_SingleByteFormsAreTheirValue :
    (0xF7#8).toNat < 0xF8 := by decide

theorem witness_MultiByteFormsGiveTheirValue_ilint2 :
    ValidForm (0xF8#8 :: [0xFF#8]) := by decide

theorem witness_MultiByteFormsGiveTheirValue_ilint3 :
    ValidForm (0xF9#8 :: [0x01#8, 0x23#8]) := by decide

theorem witness_MultiByteFormsGiveTheirValue_ilint4 :
    ValidForm (0xFA#8 :: [0x01#8, 0x00#8, 0x00#8]) := by decide

theorem witness_MultiByteFormsGiveTheirValue_ilint5 :
    ValidForm (0xFB#8 :: [0x01#8, 0x00#8, 0x00#8, 0x00#8]) := by decide

theorem witness_MultiByteFormsGiveTheirValue_ilint6 :
    ValidForm (0xFC#8 :: [0x01#8, 0x00#8, 0x00#8, 0x00#8, 0x00#8]) := by decide

theorem witness_MultiByteFormsGiveTheirValue_ilint7 :
    ValidForm (0xFD#8 :: [0x01#8, 0x00#8, 0x00#8, 0x00#8, 0x00#8, 0x00#8]) := by decide

theorem witness_MultiByteFormsGiveTheirValue_ilint8 :
    ValidForm (0xFE#8 :: [0xFF#8, 0xFF#8, 0xFF#8, 0xFF#8, 0xFF#8, 0xFF#8, 0xFF#8]) := by decide

theorem witness_MultiByteFormsGiveTheirValue_ilint9 :
    ValidForm (0xFF#8 :: [0xFF#8, 0xFF#8, 0xFF#8, 0xFF#8, 0xFF#8, 0xFF#8, 0xFF#8, 0x07#8]) := by decide

theorem witness_DecRunsFormAtFrontOfBuffer :
    decodeForm (withBuf [0xF9#8, 0x01#8, 0x23#8, 0x99#8]).buf = .ok (.ilint3 [0x01#8, 0x23#8], [0x99#8]) := by rfl

theorem witness_DecsRunsFormAtFrontOfSource :
    decodeForm (withSrc [0x2A#8, 0x2B#8]).src = .ok (.ilint1_00 0x2A#7, [0x2B#8]) := by rfl

theorem witness_DecoderAcceptsCanonicalFormsOnly :
    reply (exec (.dec 0#64) (withBuf [0xF8#8, 0x00#8])) = some (.ok 2#4 (some 0xF8#64)) ∧
      reply (exec (.decs 0#64) (withSrc [0xF8#8, 0x00#8, 0xF7#8])) = some (.ok 2#4 (some 0xF8#64)) := by decide

theorem witness_ExactlyOneValidFormPerValue :
    ValidForm [0xF8#8, 0x00#8] ∧ formValue [0xF8#8, 0x00#8] = (0xF8#64).toNat := by decide

/-- A complete form that is not valid, and decoding of the valid one. -/
theorem witness_CanonicalFormIsShortest :
    CompleteForm [0xF9#8, 0x00#8, 0x00#8] ∧ formValue [0xF9#8, 0x00#8, 0x00#8] = (0xF8#64).toNat ∧
      decForm [0xF8#8, 0x00#8] = .ok 2#4 (some 0xF8#64) := by decide

theorem witness_EncsStreamIsWholeForms :
    ({ State.reset with inputs := [.request 0x300000000000000F7#67, .reset] } : State).inputs =
      [0xF7#64].map (fun v => Input.request (3#3 ++ v)) ++ [.reset] := by decide

/-- What a reader sees before the second event. -/
theorem witness_EncsStreamIsWholeForms_view :
    SeesAtomic [] [[0xF7#8], [0xF8#8, 0x00#8]] [0xF7#8] := by exact ⟨1, by decide, by decide⟩

/-- P2. -/
theorem witness_DecsReadsBackStream :
    ({ withSrc [0xF7#8, 0xF8#8, 0x00#8, 0x01#8] with inputs := List.replicate 2 (.request 0x50000000000000000#67) } : State).inputs =
      [0xF7#64, 0xF8#64].map (fun _ => Input.request (5#3 ++ 0#64)) ++ [] ∧
      (withSrc [0xF7#8, 0xF8#8, 0x00#8, 0x01#8]).src = ([0xF7#64, 0xF8#64].map encForm).flatten ++ [0x01#8] := by decide

theorem witness_IllegalCodesAnswerIllegalOp :
    (after (exec (.decs 0#64) (answered State.reset (.error .illegalOp)))).isSome = true := by decide

theorem witness_OperationsReachOnlyTheirSpace :
    reaches (.dec 0#64) ≠ some .src ∧ reaches (.size 0#64) = none ∧ reaches (.decb 0xF8#8 2 [0x00#8]) = none := by decide

/-- Two states that agree on `BUF` alone. -/
theorem witness_ResponseDependsOnBoundSpaceOnly :
    contents .buf { withBuf [0xF8#8, 0x00#8] with sink := [0xAA#8] } = contents .buf (withBuf [0xF8#8, 0x00#8]) ∧
      (after (exec (.dec 0#64) (withBuf [0xF8#8, 0x00#8]))).isSome = true := by decide

theorem witness_TransactionsOnDistinctSpacesCommute :
    reaches (.enc 0xF8#64) ≠ reaches (.decs 0#64) ∧
      ((after (exec (.enc 0xF8#64) (withSrc [0x2A#8]))).bind fun a => after (exec (.decs 0#64) a)).isSome = true := by decide

theorem witness_DecodeOfEncode :
    Instr.WellFormed (.ilint9 (List.replicate 8 0x00#8)) ∧ encode (.ilint2 [0x00#8]) = .wire [0xF8#8, 0x00#8] := by decide

theorem witness_DecodedFormIsItsBytes :
    decodeForm [0xF8#8, 0x00#8, 0x99#8] = .ok (.ilint2 [0x00#8], [0x99#8]) := by rfl

end Sys2Proof.Tests
end

section
/-!
PROOFS. The byte formula of `bytes_be`, and the statement on big-endian conversion (00_scope.md R10).
-/

namespace Sys2Proof.Machine

/-- The byte formula of R10. It needs no bound on `x`: `bytesBe` keeps the low `n` bytes. -/
theorem getElem?_bytesBe (x n i : Nat) (hi : i < n) :
    (bytesBe x n)[i]? = some (BitVec.ofNat 8 (x / 256 ^ (n - 1 - i))) := by
  induction n generalizing x with
  | zero => exact absurd hi (Nat.not_lt_zero i)
  | succ k ih =>
    rw [bytesBe_succ]
    rcases Nat.lt_succ_iff_lt_or_eq.mp hi with hlt | rfl
    · have hexp : k + 1 - 1 - i = (k - 1 - i) + 1 := by omega
      rw [List.getElem?_append_left (by simpa using hlt), ih (x / 256) hlt, hexp,
        Nat.div_div_eq_div_mul, Nat.pow_succ']
    · simp

/-- Settles O16: existence by `be_bytesBe`, uniqueness by `be_inj`, the bytes by `getElem?_bytesBe`. -/
theorem bigEndianConversion : Obligations.BigEndianConversion := by
  unfold Obligations.BigEndianConversion
  refine ⟨rfl, be_append_one, fun x n hx => ⟨length_bytesBe x n, be_bytesBe x n hx, ?_, getElem?_bytesBe x n⟩⟩
  intro s hlen hbe
  exact be_inj s (bytesBe x n) (by rw [hlen, length_bytesBe]) (by rw [hbe, be_bytesBe x n hx])

end Sys2Proof.Machine
end

section
/-!
PROOFS. What the accesses of each instruction do to the state, in the terms of Safety (20_memory.md R40, R54): the one
equation of `effect` for each instruction that reaches a byte space, and the frame that follows from them.
-/

namespace Sys2Proof.Machine

open Sys2Proof.Safety

/-! ### The equations of `effect` -/

/-- The reads of DEC are the only thing it does before it answers (R111). -/
theorem afterBufReads_eq (s : State) : afterBufReads s = accessed s (bufReads s.buf) := by
  unfold afterBufReads bufReads
  cases hb : s.buf with
  | nil => rfl
  | cons h rest =>
    rcases Nat.lt_or_ge h.toNat 248 with hh | hh
    · simp [headNat, hh, record]
    · simp [headNat, Nat.not_lt.mpr hh, formLength_multi _ hh, record]

/-- The reads of DECS take from `SRC` what its first byte announces, or all there is (R112). -/
theorem afterSrcReads_eq (s : State) :
    afterSrcReads s = accessed { s with src := s.src.drop (formLength (headNat s.src)) } (srcReads s.src) := by
  unfold afterSrcReads srcReads
  cases hb : s.src with
  | nil => simp [headNat, record, hb]
  | cons h rest =>
    rcases Nat.lt_or_ge h.toNat 248 with hh | hh
    · simp [headNat, hh, formLength_single, record]
    · simp [headNat, Nat.not_lt.mpr hh, formLength_multi _ hh, record]

@[simp] theorem effect_dec (x : Value) (s : State) : effect (.dec x) s = accessed s (bufReads s.buf) :=
  afterBufReads_eq s

@[simp] theorem effect_decs (x : Value) (s : State) :
    effect (.decs x) s = accessed { s with src := s.src.drop (formLength (headNat s.src)) } (srcReads s.src) :=
  afterSrcReads_eq s

/-- ENC appends its form, in one append or as header and body (R47, R100). -/
@[simp] theorem effect_enc (v : Value) (s : State) :
    effect (.enc v) s = accessed { s with sink := s.sink ++ encForm v } (sinkAppends (encForm v)) := by
  simp only [effect, sinkAppends]
  rcases Nat.lt_or_ge v.toNat 248 with h | h
  · simp [h, encForm_single v h, sinkAppend, record]
  · have hsize : sizeOfValue v.toNat ≠ 1 := by
      have := sizeOfValue_multi v.toNat h v.isLt
      omega
    rw [if_neg (Nat.not_lt.mpr h), length_encForm, if_neg hsize, encForm_multi v h]
    simp [sinkAppend, record]

@[simp] theorem effect_encs (v : Value) (s : State) :
    effect (.encs v) s = accessed { s with ssink := s.ssink ++ encForm v } [.streamWrite (encForm v)] := rfl

/-- An instruction that reaches no byte space does nothing before it answers. -/
theorem effect_of_reaches_none {i : Instr} (h : reaches i = none) (s : State) : effect i s = s := by
  cases i with
  | enc _ | encs _ | dec _ | decs _ => cases h
  | _ => rfl

/-! ### The frame of `effect` -/

/-- The accesses of an instruction leave the two ports and the responses returned alone. -/
theorem effect_keeps_ports (i : Instr) (s : State) :
    (effect i s).inputs = s.inputs ∧ (effect i s).response = s.response ∧ (effect i s).responses = s.responses := by
  cases i with
  | enc _ | encs _ | dec _ | decs _ => simp
  | _ => exact ⟨rfl, rfl, rfl⟩

@[simp] theorem effect_inputs (i : Instr) (s : State) : (effect i s).inputs = s.inputs :=
  (effect_keeps_ports i s).1

@[simp] theorem effect_response (i : Instr) (s : State) : (effect i s).response = s.response :=
  (effect_keeps_ports i s).2.1

@[simp] theorem effect_responses (i : Instr) (s : State) : (effect i s).responses = s.responses :=
  (effect_keeps_ports i s).2.2

/-- The accesses leave `BUF` alone, only append to the sinks and to the record, and only take from the front of `SRC`. -/
theorem effect_monotone (i : Instr) (s : State) :
    (effect i s).buf = s.buf ∧ s.sink <+: (effect i s).sink ∧ s.ssink <+: (effect i s).ssink ∧
      (effect i s).src <:+ s.src ∧ s.accesses <+: (effect i s).accesses := by
  cases i with
  | enc _ | encs _ | dec _ => simp
  | decs _ => simp [List.drop_suffix]
  | _ => simp [effect]

@[simp] theorem contents_respond (p : Space) (s : State) (r : Response) : contents p (respond s r) = contents p s := by
  cases p <;> rfl

/-! ### What `effect` and `reply` read -/

/-- Two states hold the same bytes in the space an instruction reaches, if it reaches one. -/
def AgreeOnReached (i : Instr) (s s' : State) : Prop := ∀ p, reaches i = some p → contents p s' = contents p s

/-- The response reads the bound space and nothing else (R25). -/
theorem reply_congr {i : Instr} {s s' : State} (h : AgreeOnReached i s s') : reply i s' = reply i s := by
  cases i with
  | dec _ => exact congrArg decForm (h .buf rfl)
  | decs _ => exact congrArg decForm (h .src rfl)
  | _ => rfl

/-- So do the accesses and what they leave in the bound space (R25, R54). -/
theorem effect_congr {i : Instr} {s s' : State} (h : AgreeOnReached i s s') :
    AgreeOnReached i (effect i s) (effect i s') ∧
      ∃ as, (effect i s).accesses = s.accesses ++ as ∧ (effect i s').accesses = s'.accesses ++ as := by
  cases i with
  | enc v =>
    have hsink : s'.sink = s.sink := h .sink rfl
    exact ⟨fun p hp => by cases hp; simp [contents, hsink], sinkAppends (encForm v), by simp⟩
  | encs v =>
    have hssink : s'.ssink = s.ssink := h .ssink rfl
    exact ⟨fun p hp => by cases hp; simp [contents, hssink], [.streamWrite (encForm v)], by simp⟩
  | dec _ =>
    have hbuf : s'.buf = s.buf := h .buf rfl
    exact ⟨fun p hp => by cases hp; simp [contents, hbuf], bufReads s.buf, by simp [hbuf]⟩
  | decs _ =>
    have hsrc : s'.src = s.src := h .src rfl
    exact ⟨fun p hp => by cases hp; simp [contents, hsrc], srcReads s.src, by simp [hsrc]⟩
  | _ => exact ⟨h, [], by simp [effect]⟩

end Sys2Proof.Machine
end

section
/-!
PROOFS. The statements on the state and the step: the ports, the environment's moves, the response of a transaction and
what it depends on (10_state.md R25 to R33).
-/

namespace Sys2Proof.Machine

open Sys2Proof.Safety

/-! ### The step -/

theorem step_of_inputs_nil {s : State} (h : s.inputs = []) : step s = .next s := by
  simp only [step, takeInput, h]

theorem step_of_inputs_cons {s : State} {m : Input} {rest : List Input} (h : s.inputs = m :: rest) :
    step s = serve m { s with inputs := rest } := by
  simp only [step, takeInput, h]

/-- Settles O1: the fields of `State.reset`. -/
theorem resetPortsAreEmpty : Obligations.ResetPortsAreEmpty := ⟨rfl, rfl, rfl, rfl⟩

/-- Settles O4: the step of a machine with no input to come is idle. -/
theorem idleWithoutRequest : Obligations.IdleWithoutRequest := fun _ => step_of_inputs_nil

/-- Settles O5: the step serves the move at the head of the inputs, and `serve` is one record update for each. -/
theorem environmentMovesChangeOneSpace : Obligations.EnvironmentMovesChangeOneSpace :=
  fun _ _ _ => ⟨step_of_inputs_cons, step_of_inputs_cons, step_of_inputs_cons, step_of_inputs_cons⟩

/-- Settles O6: the step serves the request at the head of the inputs. -/
theorem stepRunsDecodedRequest : Obligations.StepRunsDecodedRequest := fun _ _ _ => step_of_inputs_cons

/-! ### One transaction -/

/-- Settles O9: the response is `reply i s`, and the accesses before it leave the ports alone. -/
theorem oneResponsePerTransaction : Obligations.OneResponsePerTransaction := by
  intro i s t h
  obtain ⟨-, rfl⟩ := exec_next h
  exact ⟨reply i s, by simp⟩

/-- Settles O51: the response touches no space, so what `effect_monotone` says of the accesses holds of the whole. -/
theorem spacesGrowAndShrinkOnlyAtTheirEnds : Obligations.SpacesGrowAndShrinkOnlyAtTheirEnds := by
  intro i s t h
  obtain ⟨-, rfl⟩ := exec_next h
  exact effect_monotone i s

/-- Settles O52: the contract of an instruction does not mention the state, and on states that agree on the bound space
`reply` and `effect` agree. -/
theorem responseDependsOnBoundSpaceOnly : Obligations.ResponseDependsOnBoundSpaceOnly := by
  intro i s s' t hagree h
  obtain ⟨hin, rfl⟩ := exec_next h
  obtain ⟨hbound, as, has, has'⟩ := effect_congr hagree
  refine ⟨respond (effect i s') (reply i s'), reply i s, as, exec_inContract hin s', rfl, ?_, has, has', ?_⟩
  · simp [reply_congr hagree]
  · intro p hp
    simpa using hbound p hp

/-! ### The responses of a run -/

theorem responseLegal_ok {n : Nat} (v : Option Value) (h1 : 1 ≤ n) (h9 : n ≤ 9) :
    ResponseLegal (.ok (BitVec.ofNat 4 n) v) = true := by
  have hn : n % 16 = n := Nat.mod_eq_of_lt (by omega)
  simp [ResponseLegal, hn, h1, h9]

/-- A header below 256 announces 1 to 9 bytes. -/
theorem formLength_range {n : Nat} (h : n ≤ 255) : 1 ≤ formLength n ∧ formLength n ≤ 9 := by
  have hbyte := formLength_byte (BitVec.ofNat 8 n)
  rwa [BitVec.toNat_ofNat, Nat.mod_eq_of_lt (by omega)] at hbyte

/-- The core answers an error, or the announced size as the count (R110). -/
theorem responseLegal_coreResponse {n : Nat} (body : List Byte) (h1 : 1 ≤ n) (h9 : n ≤ 9) :
    ResponseLegal (coreResponse n body) = true := by
  unfold coreResponse
  split
  · rfl
  split
  · rfl
  split
  · rfl
  · exact responseLegal_ok _ h1 h9

theorem responseLegal_decForm (b : List Byte) : ResponseLegal (decForm b) = true := by
  cases b with
  | nil => rfl
  | cons h rest =>
    rcases Nat.lt_or_ge h.toNat 248 with hh | hh
    · rw [decForm_single h rest hh]
      rfl
    · rw [decForm_multi h rest hh]
      exact responseLegal_coreResponse _ (formLength_byte h).1 (formLength_byte h).2

/-- Inside the contract every response is an error or has a count of 1 to 9: a size of a Value, or the length a header
byte announces (R130). -/
theorem responseLegal_reply {i : Instr} (hin : inContract i = true) (s : State) : ResponseLegal (reply i s) = true := by
  cases i with
  | size v | enc v | encs v =>
    obtain ⟨h1, h9⟩ := sizeOfValue_range v.toNat v.isLt
    exact responseLegal_ok _ h1 h9
  | hsize h =>
    simp only [reply]
    split
    · rfl
    · next hle =>
      obtain ⟨h1, h9⟩ := formLength_range (Nat.not_lt.mp hle)
      exact responseLegal_ok _ h1 h9
  | dec _ => exact responseLegal_decForm s.buf
  | decs _ => exact responseLegal_decForm s.src
  | decb h n body =>
    obtain ⟨hbase, hn, -⟩ : CoreContract h n body := of_decide_eq_true hin
    have hlt := h.isLt
    rw [base_eq] at hbase hn
    exact responseLegal_coreResponse body (by omega) (by omega)
  | illegal6 _ | illegal7 _ => rfl
  | ilint1_00 _ | ilint1_80 _ | ilint1_C0 _ | ilint1_E0 _ | ilint1_F0 _ => rfl
  | ilint2 body | ilint3 body | ilint4 body | ilint5 body | ilint6 body | ilint7 body | ilint8 body | ilint9 body =>
    exact responseLegal_coreResponse body (by decide) (by decide)

/-- A legal response, put on the port and last in the record, keeps the record sound, whatever the port held. -/
theorem responsesSound_respond {s : State} {r : Response} (hs : ∀ q ∈ s.responses, ResponseLegal q = true)
    (hr : ResponseLegal r = true) : ResponsesSound (respond s r) := by
  refine ⟨?_, .inr (by simp)⟩
  intro q hq
  rcases List.mem_append.mp hq with hold | hnew
  · exact hs q hold
  · rwa [List.mem_singleton.mp hnew]

/-- Settles O11: a request answers with a legal response, a reset empties the port, and no other move touches the port or
the record. -/
theorem stepKeepsResponsesSound : Obligations.StepKeepsResponsesSound := by
  intro s t hs hstep
  rcases step_cases s with ⟨-, e⟩ | ⟨w, rest, -, e⟩ | ⟨rest, b, e⟩ | ⟨rest, b, e⟩ | ⟨rest, b, e⟩ | ⟨rest, b, e⟩ |
    ⟨rest, e⟩ <;> obtain rfl := Host.Outcome.next.inj (e.symm.trans hstep)
  · exact hs
  · exact responsesSound_respond (by simpa using hs.1) (responseLegal_reply (inContract_decodeRequest w) _)
  · exact hs
  · exact hs
  · exact hs
  · exact hs
  · exact ⟨hs.1, .inl rfl⟩

end Sys2Proof.Machine
end

section
/-!
PROOFS. The frame of the accesses and the transactions that follow from it: a space an instruction does not reach stays as
it is, and instructions on different spaces commute (20_memory.md R40, R43, R46, R48, R54).
-/

namespace Sys2Proof.Machine

open Sys2Proof.Safety

/-! ### Frames -/

/-- The accesses of an instruction leave every space but the one it reaches as it was (R40, R54). -/
theorem contents_effect_of_not_reached {i : Instr} {p : Space} (h : reaches i ≠ some p) (s : State) :
    contents p (effect i s) = contents p s := by
  cases i with
  | enc v =>
    cases p with
    | sink => exact absurd rfl h
    | buf | ssink | src => simp [contents]
  | encs v =>
    cases p with
    | ssink => exact absurd rfl h
    | buf | sink | src => simp [contents]
  | dec x => cases p <;> simp [contents]
  | decs x =>
    cases p with
    | src => exact absurd rfl h
    | buf | sink | ssink => simp [contents]
  | _ => rfl

/-- Settles O50: the response touches no space and no input, so the frame of the accesses is that of the instruction. -/
theorem operationsReachOnlyTheirSpace : Obligations.OperationsReachOnlyTheirSpace := by
  intro i s t h
  obtain ⟨-, rfl⟩ := exec_next h
  refine ⟨fun p hp => ?_, (effect_monotone i s).1, effect_inputs i s, fun hnone => ?_⟩
  · rw [contents_respond, contents_effect_of_not_reached hp]
  · rw [respond_accesses, effect_of_reaches_none hnone]

/-- Outside the appended bytes an append changes nothing (R46, R48). -/
theorem getElem?_append_outside {old new : List Byte} {k : Nat}
    (h : k < old.length ∨ old.length + new.length ≤ k) : (old ++ new)[k]? = old[k]? := by
  rcases h with hold | hpast
  · exact List.getElem?_append_left hold
  · rw [List.getElem?_eq_none (by simpa using hpast), List.getElem?_eq_none (by omega)]

/-- Settles O21: the sink of each operation grows by its form, and an append changes nothing outside it. -/
theorem sinkBytesStayInPlace : Obligations.SinkBytesStayInPlace := by
  intro v s t k
  refine ⟨fun h hk => ?_, fun h hk => ?_⟩ <;> obtain ⟨-, rfl⟩ := exec_next h
  · simpa using getElem?_append_outside hk
  · simpa using getElem?_append_outside hk

/-! ### Transactions on different spaces -/

/-- After a transaction that does not reach it, the space an instruction reaches holds the same bytes. -/
theorem agreeOnReached_after {i j : Instr} (h : ∀ p, reaches i = some p → reaches j ≠ some p) (s : State) (r : Response) :
    AgreeOnReached i s (respond (effect j s) r) := by
  intro p hp
  rw [contents_respond, contents_effect_of_not_reached (h p hp)]

/-- A space that one of two instructions on different spaces reaches ends with the same bytes in either order. -/
theorem contents_effect_comm {i j : Instr} {p : Space} (h : ∀ q, reaches i = some q → reaches j ≠ some q)
    (hi : reaches i = some p) (s : State) (ri rj : Response) :
    contents p (effect j (respond (effect i s) ri)) = contents p (effect i (respond (effect j s) rj)) := by
  obtain ⟨hsame, -⟩ := effect_congr (agreeOnReached_after h s rj)
  rw [contents_effect_of_not_reached (h p hi), contents_respond, hsame p hi]

/-- Settles O53: each of the two finds its space as in the other order, so it answers the same; a space that one of them
reaches is left to that one, and any other is left alone. -/
theorem transactionsOnDistinctSpacesCommute : Obligations.TransactionsOnDistinctSpacesCommute := by
  intro i j s a b hdistinct hi hj
  obtain ⟨hci, rfl⟩ := exec_next hi
  obtain ⟨hcj, rfl⟩ := exec_next hj
  have hij : ∀ p, reaches i = some p → reaches j ≠ some p := by
    intro p hip hjp
    simp [hip, hjp] at hdistinct
  have hji : ∀ p, reaches j = some p → reaches i ≠ some p := fun p hjp hip => hij p hip hjp
  refine ⟨_, _, exec_inContract hcj s, exec_inContract hci _, fun p => ?_, ?_, ?_⟩
  · rw [contents_respond, contents_respond]
    by_cases hip : reaches i = some p
    · exact (contents_effect_comm hij hip s _ _).symm
    by_cases hjp : reaches j = some p
    · exact contents_effect_comm hji hjp s _ _
    · simp only [contents_effect_of_not_reached hip, contents_effect_of_not_reached hjp, contents_respond]
  · simp only [respond_response, reply_congr (agreeOnReached_after hij s _)]
  · simp only [respond_response, reply_congr (agreeOnReached_after hji s _)]

end Sys2Proof.Machine
end

section
/-!
PROOFS. What DEC reads of `BUF`: the announced bytes and nothing beyond (20_memory.md R44, R45).
-/

namespace Sys2Proof.Machine

open Sys2Proof.Safety

/-- DEC makes its reads and answers `dec` of the buffer (R111, R113). -/
theorem exec_dec (x : Value) (s : State) :
    exec (.dec x) s = .next (answered (accessed s (bufReads s.buf)) (decForm s.buf)) := by
  rw [exec_inContract rfl, effect_dec]
  rfl

theorem formLength_headNat_range (b : List Byte) : 1 ≤ formLength (headNat b) ∧ formLength (headNat b) ≤ 9 :=
  formLength_byte (b.headD 0x00#8)

theorem headNat_take (b : List Byte) {n : Nat} (h : 1 ≤ n) : headNat (b.take n) = headNat b := by
  obtain ⟨m, rfl⟩ := Nat.exists_eq_add_of_le' h
  cases b <;> rfl

/-- `dec` depends on the announced bytes at the front alone (R45, R113). -/
theorem decForm_take_formLength (b : List Byte) : decForm (b.take (formLength (headNat b))) = decForm b := by
  cases b with
  | nil => simp
  | cons h rest =>
    have hhead : headNat (h :: rest) = h.toNat := rfl
    rw [hhead]
    rcases Nat.lt_or_ge h.toNat 248 with hh | hh
    · rw [formLength_single _ hh, List.take_succ_cons, decForm_single h _ hh, decForm_single h _ hh]
    · obtain ⟨m, hm⟩ := Nat.exists_eq_add_of_le' (formLength_byte h).1
      rw [hm, List.take_succ_cons, decForm_multi h _ hh, decForm_multi h _ hh, hm, Nat.add_sub_cancel, List.take_take,
        Nat.min_self]

/-- Settles O29: the two buffers agree on the first byte, so on the reads and on the announced length, and `dec` depends on
no more bytes than those. -/
theorem decReadsOnlyAnnouncedPrefix : Obligations.DecReadsOnlyAnnouncedPrefix := by
  intro x s b b' hprefix
  obtain ⟨hpos, hnine⟩ := formLength_headNat_range b
  have hhead : headNat b' = headNat b := by
    rw [← headNat_take b' hpos, ← hprefix, headNat_take b hpos]
  have hreads : bufReads b' = bufReads b := by simp only [bufReads, hhead]
  have hform : decForm b' = decForm b := by
    rw [← decForm_take_formLength b', hhead, ← hprefix, decForm_take_formLength]
  refine ⟨hnine, decForm b, exec_dec x _, ?_⟩
  rw [exec_dec, hreads, hform]

/-- Settles O32: DEC leaves `BUF` as it is, and its response is `dec` of `BUF`. -/
theorem decRepeatsItsAnswer : Obligations.DecRepeatsItsAnswer := by
  intro x y s t u ht hu
  rw [exec_dec] at ht hu
  cases ht
  cases hu
  exact ⟨rfl, rfl⟩

end Sys2Proof.Machine
end

section
/-!
PROOFS. The write events of a run: every form written to `SSINK` is whole and valid (20_memory.md R48, R49, 41_encoder.md
R101, R102).
-/

namespace Sys2Proof.Machine

open Sys2Proof.Safety

/-! ### The canonical form is valid -/

/-- `enc(v)` is a valid form: the one byte below BASE, or the header of its size with the body that R66 asks for. -/
theorem validForm_encForm (v : Value) : ValidForm (encForm v) := by
  rcases Nat.lt_or_ge v.toNat 248 with h | h
  · refine .inl ⟨by rw [length_encForm, sizeOfValue_single _ h], ?_⟩
    have hbyte : v.toNat % 256 = v.toNat := Nat.mod_eq_of_lt (by omega)
    simpa [encForm_single v h, headNat, hbyte] using h
  · obtain ⟨h2, h9, -, -⟩ := sizeOfValue_multi v.toNat h v.isLt
    have hlength := length_encForm v
    have hheader := headerOfSize_toNat _ h2 h9
    have hbody := be_bodyOfValue v.toNat h v.isLt
    have hvalue := v.isLt
    rw [encForm_multi v h] at hlength ⊢
    refine .inr ⟨?_, ?_, ?_, ?_⟩
    · simp [headNat, hheader]
    · simp only [hlength, headNat, List.headD_cons, hheader]
      omega
    · rcases Nat.lt_or_ge (sizeOfValue v.toNat) 3 with hs | hs
      · exact .inl (by omega)
      · exact .inr (bodyOfValue_head v.toNat h v.isLt hs)
    · simp only [List.tail_cons, hbody]
      omega

/-! ### The write events of an instruction -/

theorem writeEvents_append (as bs : List Access) : writeEvents (as ++ bs) = writeEvents as ++ writeEvents bs :=
  List.filterMap_append

@[simp] theorem writeEvents_streamWrite (f : List Byte) : writeEvents [.streamWrite f] = [f] := rfl

@[simp] theorem writeEvents_sinkAppends (f : List Byte) : writeEvents (sinkAppends f) = [] := by
  unfold sinkAppends
  split <;> rfl

@[simp] theorem writeEvents_bufReads (b : List Byte) : writeEvents (bufReads b) = [] := by
  unfold bufReads
  split <;> rfl

@[simp] theorem writeEvents_srcReads (b : List Byte) : writeEvents (srcReads b) = [] := by
  unfold srcReads
  split <;> rfl

/-- An instruction adds no write event but the whole form of an ENCS. -/
theorem writeEvents_effect (i : Instr) (s : State) :
    writeEvents (effect i s).accesses = writeEvents s.accesses ∨
    ∃ v, i = .encs v ∧ writeEvents (effect i s).accesses = writeEvents s.accesses ++ [encForm v] := by
  cases i with
  | encs v => exact .inr ⟨v, rfl, by simp [writeEvents_append]⟩
  | enc _ | dec _ | decs _ => exact .inl (by simp [writeEvents_append])
  | _ => exact .inl rfl

theorem writeEventsWhole_effect {s : State} (hs : WriteEventsWhole s) (i : Instr) : WriteEventsWhole (effect i s) := by
  intro f hf
  rcases writeEvents_effect i s with e | ⟨v, -, e⟩ <;> rw [e] at hf
  · exact hs f hf
  · rcases List.mem_append.mp hf with hold | hnew
    · exact hs f hold
    · rw [List.mem_singleton.mp hnew]
      exact validForm_encForm v

/-- Settles O10: a request adds at most the whole form of an ENCS to the record, and no other move adds to it. -/
theorem stepKeepsWholeWriteEvents : Obligations.StepKeepsWholeWriteEvents := by
  intro s t hs hstep
  rcases step_cases s with ⟨-, e⟩ | ⟨w, rest, -, e⟩ | ⟨rest, b, e⟩ | ⟨rest, b, e⟩ | ⟨rest, b, e⟩ | ⟨rest, b, e⟩ |
    ⟨rest, e⟩ <;> obtain rfl := Host.Outcome.next.inj (e.symm.trans hstep)
  case inr.inl =>
    have hrest : WriteEventsWhole { s with inputs := rest } := hs
    exact writeEventsWhole_effect hrest (decodeRequest w)
  all_goals exact hs

/-- Settles O2: at reset both records are empty and the port carries no value. -/
theorem safeHoldsAtReset : Obligations.SafeHoldsAtReset := by
  have hevents : WriteEventsWhole State.reset := fun f hf => absurd hf (List.not_mem_nil (a := f))
  have hresponses : ResponsesSound State.reset :=
    ⟨fun r hr => absurd hr (List.not_mem_nil (a := r)), .inl rfl⟩
  exact ⟨hevents, hresponses⟩

end Sys2Proof.Machine
end

section
/-!
PROOFS. Decoder and encoder are inverse to each other: request words (30_encoding.md R70, R71) and wire forms (R61 to R64,
R78).
-/

namespace Sys2Proof

open Sys2Proof.Machine Sys2Proof.Safety

/-! ### Request words -/

theorem requestWord_split (w : RequestWord) : w = selectOf w ++ operandOf w := by
  rw [selectOf, operandOf, BitVec.extractLsb'_append_extractLsb'_eq_extractLsb' (by rfl)]
  exact BitVec.extractLsb'_eq_self.symm

/-- The eight select codes of R71. -/
theorem decodeRequest_select (x : Value) :
    decodeRequest (0#3 ++ x) = .size x ∧ decodeRequest (1#3 ++ x) = .hsize x ∧
    decodeRequest (2#3 ++ x) = .enc x ∧ decodeRequest (3#3 ++ x) = .encs x ∧
    decodeRequest (4#3 ++ x) = .dec x ∧ decodeRequest (5#3 ++ x) = .decs x ∧
    decodeRequest (6#3 ++ x) = .illegal6 x ∧ decodeRequest (7#3 ++ x) = .illegal7 x := by
  simp [decodeRequest]

/-- A word is that of its select code and operand, and the code is one of eight. -/
theorem decodeRequest_cases (w : RequestWord) :
    (w = 0#3 ++ operandOf w ∧ decodeRequest w = .size (operandOf w)) ∨
    (w = 1#3 ++ operandOf w ∧ decodeRequest w = .hsize (operandOf w)) ∨
    (w = 2#3 ++ operandOf w ∧ decodeRequest w = .enc (operandOf w)) ∨
    (w = 3#3 ++ operandOf w ∧ decodeRequest w = .encs (operandOf w)) ∨
    (w = 4#3 ++ operandOf w ∧ decodeRequest w = .dec (operandOf w)) ∨
    (w = 5#3 ++ operandOf w ∧ decodeRequest w = .decs (operandOf w)) ∨
    (w = 6#3 ++ operandOf w ∧ decodeRequest w = .illegal6 (operandOf w)) ∨
    (w = 7#3 ++ operandOf w ∧ decodeRequest w = .illegal7 (operandOf w)) := by
  have hop : ∀ op : Select, op = 0#3 ∨ op = 1#3 ∨ op = 2#3 ∨ op = 3#3 ∨ op = 4#3 ∨ op = 5#3 ∨ op = 6#3 ∨ op = 7#3 := by
    decide
  have hw := requestWord_split w
  generalize operandOf w = x at hw ⊢
  rcases hop (selectOf w) with h | h | h | h | h | h | h | h <;> rw [h] at hw <;> subst hw <;>
    simp [decodeRequest_select]

theorem encode_decodeRequest (w : RequestWord) : encode (decodeRequest w) = .request w := by
  rcases decodeRequest_cases w with ⟨hw, e⟩ | ⟨hw, e⟩ | ⟨hw, e⟩ | ⟨hw, e⟩ | ⟨hw, e⟩ | ⟨hw, e⟩ | ⟨hw, e⟩ | ⟨hw, e⟩ <;>
    rw [e] <;> exact congrArg Code.request hw.symm

theorem decodeRequest_of_encode {i : Instr} {w : RequestWord} (h : encode i = .request w) : decodeRequest w = i := by
  cases i with
  | size x | hsize x | enc x | encs x | dec x | decs x | illegal6 x | illegal7 x =>
    cases h
    simp [requestWord, decodeRequest_select]
  | _ => cases h

theorem eq_decb_of_encode {i : Instr} {h : Byte} {n : Nat} {body : List Byte} (e : encode i = .core h n body) :
    i = .decb h n body := by
  cases i with
  | decb _ _ _ =>
    cases e
    rfl
  | _ => cases e

/-! ### Wire forms -/

/-- A header with at least the announced bytes after it is read whole, and the rest is left over (R64). -/
theorem decodeForm_append {h : Byte} {body : List Byte} (hlen : body.length + 1 = formLength h.toNat) (rest : List Byte) :
    decodeForm (h :: body ++ rest) = .ok (wireInstr h body, rest) := by
  have hn : formLength h.toNat - 1 = body.length := by omega
  simp [decodeForm, hn]

/-- Nothing else is read: a form that decodes is a header with the announced bytes after it. -/
theorem decodeForm_ok {bytes rest : List Byte} {i : Instr} (h : decodeForm bytes = .ok (i, rest)) :
    ∃ hd body, bytes = hd :: body ++ rest ∧ body.length + 1 = formLength hd.toNat ∧ i = wireInstr hd body := by
  cases bytes with
  | nil => cases h
  | cons hd tl =>
    have hpos := (formLength_byte hd).1
    simp only [decodeForm] at h
    split at h
    · cases h
    · next hlen =>
      cases h
      refine ⟨hd, tl.take (formLength hd.toNat - 1), by simp, ?_, rfl⟩
      rw [List.length_take]
      omega

theorem decode_wire {bytes rest : List Byte} {i : Instr} (h : decodeForm bytes = .ok (i, rest)) :
    decode (.wire bytes) = .ok i := by
  simp only [decode, h]

/-- The row a header matches encodes to that header and its body, and asks of the body the announced length. -/
theorem encode_wireInstr {h : Byte} {body : List Byte} (hlen : body.length + 1 = formLength h.toNat) :
    encode (wireInstr h body) = .wire (h :: body) ∧ (wireInstr h body).WellFormed := by
  rcases Nat.lt_or_ge h.toNat 248 with hh | hh
  · rw [formLength_single _ hh] at hlen
    obtain rfl : body = [] := List.eq_nil_of_length_eq_zero (by omega)
    rcases wireInstr_single h [] hh with ⟨v, e, rfl⟩ | ⟨v, e, rfl⟩ | ⟨v, e, rfl⟩ | ⟨v, e, rfl⟩ | ⟨v, e, rfl⟩ <;>
      rw [e] <;> exact ⟨rfl, rfl⟩
  · rcases wireInstr_multi h body hh with ⟨rfl, e⟩ | ⟨rfl, e⟩ | ⟨rfl, e⟩ | ⟨rfl, e⟩ | ⟨rfl, e⟩ | ⟨rfl, e⟩ | ⟨rfl, e⟩ |
      ⟨rfl, e⟩ <;> rw [e] <;> exact ⟨rfl, beq_of_eq (Nat.succ.inj hlen)⟩

/-- A well-formed instruction on the wire is a header with the announced bytes after it, and its row is the one that the
header matches. -/
theorem wireInstr_of_encode {i : Instr} (hwf : i.WellFormed) {bytes : List Byte} (e : encode i = .wire bytes) :
    ∃ h body, bytes = h :: body ∧ body.length + 1 = formLength h.toNat ∧ wireInstr h body = i := by
  cases i with
  | size _ | hsize _ | enc _ | encs _ | dec _ | decs _ | illegal6 _ | illegal7 _ | decb _ _ _ => cases e
  | ilint1_00 v | ilint1_80 v | ilint1_C0 v | ilint1_E0 v | ilint1_F0 v =>
    cases e
    refine ⟨_, [], rfl, ?_⟩
    revert v
    decide
  | ilint2 body | ilint3 body | ilint4 body | ilint5 body | ilint6 body | ilint7 body | ilint8 body | ilint9 body =>
    cases e
    exact ⟨_, body, rfl, congrArg Nat.succ (eq_of_beq hwf), rfl⟩

/-- Settles O54: by the code the instruction is carried as. A request word is that of its select code and operand, a core
call is its operands, and a wire form is a header with the announced bytes after it, which `decodeForm` takes. -/
theorem decodeOfEncode : Obligations.DecodeOfEncode := by
  intro i hwf
  cases e : encode i with
  | request w => exact ⟨congrArg Except.ok (decodeRequest_of_encode e), fun _ _ h => by cases h⟩
  | core h n body => exact ⟨congrArg Except.ok (eq_decb_of_encode e).symm, fun _ _ h => by cases h⟩
  | wire bytes =>
    obtain ⟨h, body, rfl, hlen, rfl⟩ := wireInstr_of_encode hwf e
    refine ⟨decode_wire (rest := []) ?_, fun _ rest hb => ?_⟩
    · simpa using decodeForm_append hlen []
    · cases hb
      exact decodeForm_append hlen rest

/-- Settles O56: what `decodeForm` takes is a header with the announced bytes after it, and that is what the header's row
encodes to. -/
theorem decodedFormIsItsBytes : Obligations.DecodedFormIsItsBytes := by
  intro bytes i rest h
  obtain ⟨hd, body, rfl, hlen, rfl⟩ := decodeForm_ok h
  obtain ⟨henc, hwf⟩ := encode_wireInstr hlen
  exact ⟨hwf, hd :: body, henc, rfl, hlen⟩

/-- Settles O55: in each of the eight cases the word is that of the select code and the operand. -/
theorem encodeOfDecodedRequest : Obligations.EncodeOfDecodedRequest := encode_decodeRequest

/-- Settles O44: a word is its two fields, the eight codes are R71's, and there is no ninth. -/
theorem requestWordsSelectOperations : Obligations.RequestWordsSelectOperations := by
  refine ⟨requestWord_split, decodeRequest_select, fun w => ?_⟩
  rcases decodeRequest_cases w with ⟨-, e⟩ | ⟨-, e⟩ | ⟨-, e⟩ | ⟨-, e⟩ | ⟨-, e⟩ | ⟨-, e⟩ | ⟨-, e⟩ | ⟨-, e⟩ <;> simp [e]

/-- The lengths of the rows that a byte matches are one length, the one it announces (R78). -/
theorem wireRows_lengths (h : Byte) :
    (wireRows.filter fun row => row.matchesByte h).map WireRow.totalLen = [formLength h.toNat] := by
  revert h
  decide

/-- Settles O57: by the lengths of the rows that match. -/
theorem everyHeaderMatchesOneRow : Obligations.EveryHeaderMatchesOneRow := by
  intro h
  exact List.map_eq_singleton_iff.mp (wireRows_lengths h)

/-- Settles O58: each word is decoded as written. -/
theorem writtenWordsDecode : Obligations.WrittenWordsDecode :=
  ⟨by decide, by decide, by decide, by decide, by decide, rfl, rfl, rfl, rfl⟩

end Sys2Proof
end

section
/-!
PROOFS. Valid forms and the classes of rejected input, what decoding answers on each, and that they share out all byte
sequences (30_encoding.md R61, R62, R66 to R68).
-/

namespace Sys2Proof.Machine

open Sys2Proof.Safety

/-! ### The core's checks -/

theorem coreResponse_wrongLength {n : Nat} {body : List Byte} (h : body.length ≠ n - 1) :
    coreResponse n body = .error .truncated := by
  simp [coreResponse, lengthCheckFails, h]

theorem coreResponse_leadingZero {n : Nat} {body : List Byte} (hlen : body.length = n - 1) (hlong : 1 < body.length)
    (hzero : body[0]? = some 0x00#8) : coreResponse n body = .error .noncanonical := by
  simp [coreResponse, lengthCheckFails, canonicalCheckFails, List.head?_eq_getElem?, ← hlen, hlong, hzero]

theorem canonicalCheckFails_eq_false {body : List Byte} (h : body.length ≤ 1 ∨ body[0]? ≠ some 0x00#8) :
    canonicalCheckFails body = false := by
  rcases h with h | h
  · simp [canonicalCheckFails, Nat.not_lt.mpr h]
  · simp [canonicalCheckFails, List.head?_eq_getElem?, h]

theorem coreResponse_tooLarge {n : Nat} {body : List Byte} (hlen : body.length = n - 1)
    (hcanon : body.length ≤ 1 ∨ body[0]? ≠ some 0x00#8) (hlarge : 2 ^ 64 - 1 < be body + 248) :
    coreResponse n body = .error .overflow := by
  have hrange : rangeCheckFails body = true := decide_eq_true hlarge
  simp [coreResponse, lengthCheckFails, canonicalCheckFails_eq_false hcanon, hrange, ← hlen]

theorem coreResponse_valid {n : Nat} {body : List Byte} (hlen : body.length = n - 1)
    (hcanon : body.length ≤ 1 ∨ body[0]? ≠ some 0x00#8) (hsmall : be body + 248 ≤ 2 ^ 64 - 1) :
    coreResponse n body = .ok (BitVec.ofNat 4 n) (some (BitVec.ofNat 64 (be body + 248))) := by
  have hrange : rangeCheckFails body = false := decide_eq_false (Nat.not_lt.mpr hsmall)
  simp [coreResponse, lengthCheckFails, canonicalCheckFails_eq_false hcanon, hrange, ← hlen]

/-! ### Valid forms and classes, by header and body -/

@[simp] theorem headNat_cons (h : Byte) (rest : List Byte) : headNat (h :: rest) = h.toNat := rfl

theorem validForm_single {h : Byte} {body : List Byte} (hh : h.toNat < 248) : ValidForm (h :: body) ↔ body = [] := by
  simp only [ValidForm, headNat_cons, List.length_cons, ← List.length_eq_zero_iff]
  omega

theorem validForm_multi {h : Byte} {body : List Byte} (hh : 248 ≤ h.toNat) :
    ValidForm (h :: body) ↔ body.length = formLength h.toNat - 1 ∧ (body.length ≤ 1 ∨ body[0]? ≠ some 0x00#8) ∧
      be body + 248 ≤ 2 ^ 64 - 1 := by
  have hn := formLength_multi _ hh
  simp only [ValidForm, headNat_cons, List.length_cons, List.getElem?_cons_succ, List.tail_cons]
  constructor
  · rintro (⟨-, hlt⟩ | ⟨-, hlen, hcanon, hrange⟩)
    · exact absurd hlt (Nat.not_lt.mpr hh)
    · exact ⟨by omega, hcanon.imp_left (by omega), hrange⟩
  · rintro ⟨hlen, hcanon, hrange⟩
    exact .inr ⟨hh, by omega, hcanon.imp_left (by omega), hrange⟩

theorem truncatedInput_cons {h : Byte} {rest : List Byte} :
    TruncatedInput (h :: rest) ↔ 248 ≤ h.toNat ∧ rest.length < formLength h.toNat - 1 := by
  simp only [TruncatedInput, headNat_cons, List.length_cons]
  constructor <;> rintro ⟨hh, hlt⟩ <;> have hn := formLength_multi _ hh <;> exact ⟨hh, by omega⟩

theorem length_take_of_not_truncated {h : Byte} {rest : List Byte} (hh : 248 ≤ h.toNat)
    (ht : ¬ TruncatedInput (h :: rest)) :
    (rest.take (formLength h.toNat - 1)).length = formLength h.toNat - 1 := by
  rw [truncatedInput_cons] at ht
  rw [List.length_take]
  omega

/-- The first byte of the announced body is the second byte of the input. -/
theorem getElem?_zero_announced {h : Byte} (rest : List Byte) (hh : 248 ≤ h.toNat) :
    (rest.take (formLength h.toNat - 1))[0]? = rest[0]? := by
  rw [List.getElem?_take, if_pos (by have := formLength_multi _ hh; omega)]

/-! ### What decoding answers on each class (R67) -/

theorem decForm_of_empty {s : List Byte} (h : EmptyInput s) : decForm s = .error .noHeader := by
  rw [List.eq_nil_of_length_eq_zero h, decForm_nil]

theorem decForm_of_truncated {s : List Byte} (ht : TruncatedInput s) : decForm s = .error .truncated := by
  cases s with
  | nil => exact absurd ht (by decide)
  | cons h rest =>
    obtain ⟨hh, hlt⟩ := truncatedInput_cons.mp ht
    rw [decForm_multi h rest hh]
    exact coreResponse_wrongLength (by rw [List.length_take]; omega)

theorem decForm_of_noncanonical {s : List Byte} (hs : NoncanonicalInput s) : decForm s = .error .noncanonical := by
  obtain ⟨ht, hhead, hzero⟩ := hs
  cases s with
  | nil => exact absurd hhead (by decide)
  | cons h rest =>
    rw [headNat_cons] at hhead
    have hh : 248 ≤ h.toNat := by omega
    have hn := formLength_multi _ hh
    have hlen := length_take_of_not_truncated hh ht
    rw [decForm_multi h rest hh]
    exact coreResponse_leadingZero hlen (by omega) (by rwa [getElem?_zero_announced rest hh])

/-- Eight bytes that denote more than 0xFFFFFFFFFFFFFF07 do not begin with a zero byte. -/
theorem getElem?_zero_ne_of_overflow {body : List Byte} (hlen : body.length = 8) (hlarge : 0xFFFFFFFFFFFFFF07 < be body) :
    body[0]? ≠ some 0x00#8 := by
  cases body with
  | nil => cases hlen
  | cons b tl =>
    intro hb
    obtain rfl : b = 0x00#8 := by simpa using hb
    have hlt := be_lt tl
    rw [be_zero_cons] at hlarge
    rw [Nat.succ.inj hlen] at hlt
    omega

theorem decForm_of_overflow {s : List Byte} (hs : OverflowInput s) : decForm s = .error .overflow := by
  obtain ⟨ht, hhead, hlarge⟩ := hs
  cases s with
  | nil => exact absurd hhead (by decide)
  | cons h rest =>
    rw [headNat_cons] at hhead
    have hh : 248 ≤ h.toNat := by omega
    have hn : formLength h.toNat - 1 = 8 := by rw [hhead]; rfl
    have hlen := length_take_of_not_truncated hh ht
    rw [decForm_multi h rest hh]
    rw [hn] at hlen ⊢
    rw [List.tail_cons] at hlarge
    exact coreResponse_tooLarge (by omega) (.inr (getElem?_zero_ne_of_overflow hlen hlarge)) (by omega)

/-- A valid form at the front decodes to its Value and its length, whatever follows it (R61, R62, R111). -/
theorem decForm_of_validForm {form : List Byte} (hv : ValidForm form) (rest : List Byte) :
    decForm (form ++ rest) = decoded form := by
  cases form with
  | nil => exact absurd hv (by decide)
  | cons h body =>
    rcases Nat.lt_or_ge h.toNat 248 with hh | hh
    · rw [(validForm_single hh).mp hv, List.singleton_append, decForm_single h rest hh]
      simp [decoded, formValue, hh]
    · obtain ⟨hlen, hcanon, hsmall⟩ := (validForm_multi hh).mp hv
      have hn : formLength h.toNat = body.length + 1 := by have := formLength_byte h; omega
      rw [List.cons_append, decForm_multi h _ hh, hn, Nat.add_sub_cancel, List.take_left,
        coreResponse_valid (by omega) hcanon hsmall]
      simp [decoded, formValue, Nat.not_lt.mpr hh]

theorem decForm_of_beginsValid {s : List Byte} (hs : BeginsValid s) : ∃ c v, decForm s = .ok c (some v) := by
  obtain ⟨form, rest, rfl, hv⟩ := hs
  exact ⟨_, _, decForm_of_validForm hv rest⟩

/-! ### The partition (R67) -/

/-- Only a body of eight bytes holds a number that overflows, and 0xFF alone announces one (R132). -/
theorem header_of_tooLarge {h : Byte} {body : List Byte} (hh : 248 ≤ h.toNat)
    (hlen : body.length = formLength h.toNat - 1) (hlarge : 2 ^ 64 - 1 < be body + 248) : h.toNat = 0xFF := by
  have hn := formLength_multi _ hh
  have hbyte := h.isLt
  refine Decidable.byContradiction fun hne => ?_
  have hpow : 256 ^ body.length ≤ 256 ^ 7 := Nat.pow_le_pow_right (by decide) (by omega)
  have hlt := be_lt body
  omega

/-- A header with its whole announced body is in one of the two classes of malformed form, or begins a valid form. -/
theorem class_of_not_truncated {h : Byte} {rest : List Byte} (hh : 248 ≤ h.toNat) (ht : ¬ TruncatedInput (h :: rest)) :
    NoncanonicalInput (h :: rest) ∨ OverflowInput (h :: rest) ∨ BeginsValid (h :: rest) := by
  have hn := formLength_multi _ hh
  have hlen := length_take_of_not_truncated hh ht
  have hfirst := getElem?_zero_announced rest hh
  have hsplit : h :: rest = h :: rest.take (formLength h.toNat - 1) ++ rest.drop (formLength h.toNat - 1) := by simp
  by_cases hlong : 0xF9 ≤ h.toNat ∧ rest[0]? = some 0x00#8
  · exact .inl ⟨ht, hlong⟩
  have hcanon : (rest.take (formLength h.toNat - 1)).length ≤ 1 ∨
      (rest.take (formLength h.toNat - 1))[0]? ≠ some 0x00#8 := by
    rw [hlen, hfirst]
    exact (Decidable.not_and_iff_not_or_not.mp hlong).imp_left (by omega)
  rcases Nat.lt_or_ge (2 ^ 64 - 1) (be (rest.take (formLength h.toNat - 1)) + 248) with hlarge | hsmall
  · have hhead := header_of_tooLarge hh hlen hlarge
    have hn8 : formLength h.toNat - 1 = 8 := by rw [hhead]; rfl
    rw [hn8] at hlarge
    exact .inr (.inl ⟨ht, hhead, by rw [List.tail_cons]; omega⟩)
  · exact .inr (.inr ⟨_, _, hsplit, (validForm_multi hh).mpr ⟨hlen, hcanon, hsmall⟩⟩)

theorem input_class (s : List Byte) :
    EmptyInput s ∨ TruncatedInput s ∨ NoncanonicalInput s ∨ OverflowInput s ∨ BeginsValid s := by
  cases s with
  | nil => exact .inl rfl
  | cons h rest =>
    rcases Nat.lt_or_ge h.toNat 248 with hh | hh
    · exact .inr (.inr (.inr (.inr ⟨[h], rest, rfl, (validForm_single hh).mpr rfl⟩)))
    by_cases ht : TruncatedInput (h :: rest)
    · exact .inr (.inl ht)
    · exact .inr (.inr (class_of_not_truncated hh ht))

/-- Two conditions on an input exclude each other when decoding gives them different statuses. -/
theorem not_and_of_status {s : List Byte} {c d : Prop} {j k : BitVec 3} (hc : c → statusCode (decForm s) = j)
    (hd : d → statusCode (decForm s) = k) (hne : j ≠ k) : ¬ (c ∧ d) :=
  fun ⟨h, h'⟩ => hne ((hc h).symm.trans (hd h'))

/-- Settles O27: every sequence is in some class by `input_class`, and in no two because each class has a status of its
own. -/
theorem inputClassesPartition : Obligations.InputClassesPartition := by
  intro s
  have hempty (h : EmptyInput s) : statusCode (decForm s) = 5#3 := congrArg statusCode (decForm_of_empty h)
  have htrunc (h : TruncatedInput s) : statusCode (decForm s) = 2#3 := congrArg statusCode (decForm_of_truncated h)
  have hnoncanon (h : NoncanonicalInput s) : statusCode (decForm s) = 3#3 :=
    congrArg statusCode (decForm_of_noncanonical h)
  have hover (h : OverflowInput s) : statusCode (decForm s) = 4#3 := congrArg statusCode (decForm_of_overflow h)
  have hvalid (h : BeginsValid s) : statusCode (decForm s) = 0#3 := by
    obtain ⟨c, v, e⟩ := decForm_of_beginsValid h
    rw [e]
    rfl
  refine ⟨?_, ?_, decForm_of_empty, decForm_of_truncated, decForm_of_noncanonical, decForm_of_overflow,
    decForm_of_beginsValid⟩
  · rcases input_class s with h | h | h | h | h <;> exact ⟨_, by simp, h⟩
  · simp only [List.pairwise_cons, List.mem_cons, List.not_mem_nil, or_false, forall_eq_or_imp, forall_eq,
      false_imp_iff, implies_true, List.Pairwise.nil, and_true]
    refine ⟨⟨?_, ?_, ?_, ?_⟩, ⟨?_, ?_, ?_⟩, ⟨?_, ?_⟩, ?_⟩
    · exact not_and_of_status hempty htrunc (by decide)
    · exact not_and_of_status hempty hnoncanon (by decide)
    · exact not_and_of_status hempty hover (by decide)
    · exact not_and_of_status hempty hvalid (by decide)
    · exact not_and_of_status htrunc hnoncanon (by decide)
    · exact not_and_of_status htrunc hover (by decide)
    · exact not_and_of_status htrunc hvalid (by decide)
    · exact not_and_of_status hnoncanon hover (by decide)
    · exact not_and_of_status hnoncanon hvalid (by decide)
    · exact not_and_of_status hover hvalid (by decide)

/-- Settles O20: the form and the printed body, evaluated (R68). -/
theorem largestValueForm : Obligations.LargestValueForm := by
  have hprinted : OverflowInput [0xFF#8, 0xFF#8, 0xFF#8, 0xFF#8, 0xFF#8, 0xFF#8, 0xFF#8, 0xFF#8, 0xF8#8] := by decide
  exact ⟨by decide, hprinted, decForm_of_overflow hprinted⟩

end Sys2Proof.Machine
end

section
/-!
PROOFS. The wire rows as instructions (30_encoding.md R61, R62, R78), alone and at the front of `SRC`, where a placed word
of the opcode table runs.
-/

namespace Sys2Proof.Machine

open Sys2Proof.Safety

/-! ### The rows (R61, R62) -/

theorem singleByteForm_eq (h : Byte) (s : State) :
    singleByteForm h s = .next (answered s (.ok 1#4 (some (h.setWidth 64)))) := by
  rw [singleByteForm, returnDecoded_eq, BitVec.ofNat_toNat]
  rfl

/-- A single-byte row's instruction is the form of its header byte. -/
theorem exec_wireInstr_single (h : Byte) (body : List Byte) (s : State) (hh : h.toNat < 248) :
    exec (wireInstr h body) s = singleByteForm h s := by
  rcases wireInstr_single h body hh with ⟨v, e, rfl⟩ | ⟨v, e, rfl⟩ | ⟨v, e, rfl⟩ | ⟨v, e, rfl⟩ | ⟨v, e, rfl⟩ <;>
    rw [e] <;> rfl

/-- A multi-byte row answers a valid form with its length and its Value (R62). -/
theorem multiByteForm_valid {h : Byte} {body : List Byte} (hh : 248 ≤ h.toNat) (hv : ValidForm (h :: body)) (s : State) :
    multiByteForm h body s = .next (answered s
      (.ok (BitVec.ofNat 4 (formLength h.toNat)) (some (BitVec.ofNat 64 (be body + 0xF8))))) := by
  obtain ⟨hlen, hcanon, hsmall⟩ := (validForm_multi hh).mp hv
  rw [multiByteForm_eq h body s hh, if_pos (Nat.le_of_eq hlen), coreResponse_valid hlen hcanon hsmall]
  rfl

/-- Settles O33: each row answers its header byte, and a byte below BASE is read as its row, alone. -/
theorem singleByteFormsAreTheirValue : Obligations.SingleByteFormsAreTheirValue := by
  refine ⟨fun _ => singleByteForm_eq _, fun _ => singleByteForm_eq _, fun _ => singleByteForm_eq _,
    fun _ => singleByteForm_eq _, fun _ => singleByteForm_eq _, fun h rest s hh => ?_⟩
  have hread : decodeForm (h :: rest) = .ok (wireInstr h [], rest) :=
    decodeForm_append (body := []) (formLength_single _ hh).symm rest
  exact ⟨wireInstr h [], hread, by rw [exec_wireInstr_single h [] s hh, singleByteForm_eq]⟩

/-- Settles O34: the eight headers, each by `multiByteForm_valid`. -/
theorem multiByteFormsGiveTheirValue : Obligations.MultiByteFormsGiveTheirValue :=
  ⟨fun _ s hv => multiByteForm_valid (by decide) hv s, fun _ s hv => multiByteForm_valid (by decide) hv s,
    fun _ s hv => multiByteForm_valid (by decide) hv s, fun _ s hv => multiByteForm_valid (by decide) hv s,
    fun _ s hv => multiByteForm_valid (by decide) hv s, fun _ s hv => multiByteForm_valid (by decide) hv s,
    fun _ s hv => multiByteForm_valid (by decide) hv s, fun _ s hv => multiByteForm_valid (by decide) hv s⟩

/-! ### A form at the front of a byte space -/

/-- DECS makes its reads, which consume, and answers `dec` of the stream (R112, R113). -/
theorem exec_decs (x : Value) (s : State) :
    exec (.decs x) s = .next (answered
      (accessed { s with src := s.src.drop (formLength (headNat s.src)) } (srcReads s.src)) (decForm s.src)) := by
  rw [exec_inContract rfl, effect_decs]
  rfl

/-- The instruction read from the front of some bytes answers what `dec` answers for them, and does nothing else. -/
theorem exec_of_decodeForm {bytes rest : List Byte} {i : Instr} (h : decodeForm bytes = .ok (i, rest)) (s : State) :
    exec i s = .next (answered s (decForm bytes)) := by
  obtain ⟨hd, body, rfl, hlen, rfl⟩ := decodeForm_ok h
  rcases Nat.lt_or_ge hd.toNat 248 with hh | hh
  · rw [exec_wireInstr_single hd body s hh, singleByteForm_eq, List.cons_append, decForm_single hd _ hh,
      BitVec.ofNat_toNat]
  · have hn : formLength hd.toNat - 1 = body.length := by omega
    rw [exec_wireInstr_multi hd body s hh, multiByteForm_eq hd body s hh, if_pos (Nat.le_of_eq hn.symm), List.cons_append,
      decForm_multi hd _ hh, hn, List.take_left]
    rfl

/-- DECS on a whole form at the front of `SRC` takes that form and then runs it as an instruction (R112). -/
theorem exec_decs_of_decodeForm {s : State} {i : Instr} {rest : List Byte} (h : decodeForm s.src = .ok (i, rest))
    (x : Value) : exec (.decs x) s = exec i (accessed { s with src := rest } (srcReads s.src)) := by
  have hrest : s.src.drop (formLength (headNat s.src)) = rest := by
    obtain ⟨hd, body, e, hlen, -⟩ := decodeForm_ok h
    rw [e, List.cons_append, headNat_cons, ← hlen, List.drop_succ_cons, List.drop_left]
  rw [exec_of_decodeForm h, exec_decs, hrest]

/-! ### Placed words (the model's convention, log 9) -/

theorem decodeRequest_decsWord : decodeRequest decsWord = .decs 0#64 := by decide

/-- The form in a zero-extended header byte, whatever follows it: the bytes placed are enough for any header. -/
theorem decodeForm_zeroExtendedForm (h : Byte) (more : List Byte) :
    decodeForm (zeroExtendedForm h ++ more) = .ok (wireInstr h (List.replicate (formLength h.toNat - 1) 0x00#8),
      (zeroExtendedForm h).drop (formLength h.toNat) ++ more) := by
  obtain ⟨hpos, hnine⟩ := formLength_byte h
  obtain ⟨n, hn⟩ := Nat.exists_eq_add_of_le' hpos
  have hsplit : zeroExtendedForm h ++ more =
      h :: List.replicate n 0x00#8 ++ ((zeroExtendedForm h).drop (formLength h.toNat) ++ more) := by
    simp only [zeroExtendedForm, hn, List.drop_succ_cons, List.drop_replicate, List.cons_append]
    rw [← List.append_assoc, List.replicate_append_replicate, Nat.add_sub_cancel' (by simp only [Config.maxLen]; omega)]
  rw [hsplit, decodeForm_append (by simp [hn]), hn, Nat.add_sub_cancel]

/-- A DECS whose request is next, with a zero-extended header byte in front of `SRC`, runs the form of that byte. -/
theorem step_decs_zeroExtendedForm (h : Byte) (s : State) :
    step { s with src := zeroExtendedForm h ++ s.src, inputs := .request decsWord :: s.inputs } =
      exec (wireInstr h (List.replicate (formLength h.toNat - 1) 0x00#8)) (accessed
        { s with src := (zeroExtendedForm h).drop (formLength h.toNat) ++ s.src }
        (srcReads (zeroExtendedForm h ++ s.src))) := by
  rw [step_of_inputs_cons rfl, serve, decodeRequest_decsWord]
  exact exec_decs_of_decodeForm (decodeForm_zeroExtendedForm h s.src) 0#64

theorem decodeTableWord_wire {w : Nat} (hw : w < 2 ^ 8) :
    decodeTableWord 8 w = some (wireInstr (BitVec.ofNat 8 w) (List.replicate (formLength w - 1) 0x00#8)) := by
  have hread := decodeForm_zeroExtendedForm (BitVec.ofNat 8 w) []
  rw [List.append_nil, BitVec.toNat_ofNat, Nat.mod_eq_of_lt hw] at hread
  rw [decodeTableWord, if_neg (by decide), if_pos rfl, if_pos hw, decode_wire hread]

theorem decodeTableWord_request {nbits w : Nat} (h67 : 67 ≤ nbits) (h72 : nbits ≤ 72) (hw : w < 2 ^ 67) :
    decodeTableWord nbits w = some (decodeRequest (BitVec.ofNat 67 w)) := by
  rw [decodeTableWord, if_neg (by omega), if_neg (by omega), if_pos ⟨h67, h72⟩, if_pos hw]

/-- Settles O12: a placed header byte, and that of the core's row, is met by the DECS that is presented; a request word is
the next request. -/
theorem placedWordRuns : Obligations.PlacedWordRuns := by
  refine ⟨fun s w hw => ⟨_, decodeTableWord_wire hw, ?_⟩, fun s => ⟨_, rfl, ?_⟩,
    fun s nbits w h67 h72 hw => ⟨_, decodeTableWord_request h67 h72 hw, ?_⟩⟩
  · have h := step_decs_zeroExtendedForm (BitVec.ofNat 8 w) s
    rwa [BitVec.toNat_ofNat, Nat.mod_eq_of_lt hw] at h
  · exact step_decs_zeroExtendedForm 0xF8#8 s
  · rw [State.withFetchWord, placeWord, if_neg (by omega), if_neg (by omega), step_of_inputs_cons rfl]
    rfl

end Sys2Proof.Machine
end

section
/-!
PROOFS. Request words whose operand is ignored, the illegal select codes, and the response word (30_encoding.md R72 to R75).
-/

namespace Sys2Proof.Machine

open Sys2Proof.Safety

/-! ### Operands that are ignored, and illegal codes (R72, R75) -/

/-- Settles O45: the answer is the one response of R75, and it leaves the byte spaces as they are, which is all that the
next instruction reads. -/
theorem illegalCodesAnswerIllegalOp : Obligations.IllegalCodesAnswerIllegalOp := by
  refine ⟨fun x => ⟨?_, ?_⟩, fun x s => ⟨rfl, rfl, fun i t u ht hu => ?_⟩⟩
  · simp [decodeRequest_select]
  · simp [decodeRequest_select]
  obtain ⟨-, rfl⟩ := exec_next ht
  obtain ⟨-, rfl⟩ := exec_next hu
  have hsame : AgreeOnReached i s (answered s (.error .illegalOp)) := fun p _ => contents_respond p s _
  rw [respond_response, respond_response, reply_congr hsame]

/-- Settles O46: the meanings of these four do not take the operand. -/
theorem ignoredOperandsInfluenceNothing : Obligations.IgnoredOperandsInfluenceNothing :=
  fun _ _ _ => ⟨rfl, rfl, rfl, rfl⟩

/-! ### The response word (R73, R74) -/

theorem responseWord_split (w : ResponseWord) :
    w = w.extractLsb' 68 3 ++ w.extractLsb' 64 4 ++ w.extractLsb' 0 64 := by
  rw [BitVec.extractLsb'_append_extractLsb'_eq_extractLsb' (by rfl),
    BitVec.extractLsb'_append_extractLsb'_eq_extractLsb' (by rfl)]
  exact BitVec.extractLsb'_eq_self.symm

/-- A response word is its three fields (R73). -/
theorem responseWord_eq_iff (w : ResponseWord) (status : BitVec 3) (c : Count) (v : Value) :
    w = status ++ c ++ v ↔ w.extractLsb' 68 3 = status ∧ w.extractLsb' 64 4 = c ∧ w.extractLsb' 0 64 = v := by
  constructor
  · rintro rfl
    refine ⟨?_, ?_, BitVec.extractLsb'_append_eq_right⟩
    · rw [BitVec.extractLsb'_append_eq_of_le (by decide)]
      exact BitVec.extractLsb'_append_eq_left
    · rw [BitVec.extractLsb'_append_eq_of_le (by decide)]
      exact BitVec.extractLsb'_append_eq_right
  · rintro ⟨rfl, rfl, rfl⟩
    exact responseWord_split w

/-- Settles O48: `carries` compares the status and the fields returned; the other fields of the word are free. -/
theorem responseWordCarriesReturnedFields : Obligations.ResponseWordCarriesReturnedFields := by
  refine ⟨fun w c v => ?_, fun w c => ?_, fun w e => ?_⟩
  · simp [responseWord_eq_iff, carries, statusCode]
  · simp [responseWord_eq_iff, carries, statusCode]
  · simp [responseWord_eq_iff, carries, statusCode]

end Sys2Proof.Machine
end

section
/-!
PROOFS. The size unit: SIZE gives the band of a Value and HSIZE the length that a header announces (40_size_unit.md R90,
R91).
-/

namespace Sys2Proof.Machine

open Sys2Proof.Safety

/-! ### SIZE (R90) -/

theorem exec_size (v : Value) (s : State) :
    exec (.size v) s = .next (answered s (.ok (BitVec.ofNat 4 (sizeOfValue v.toNat)) none)) :=
  exec_inContract rfl s

/-- The bands end with the largest Value. -/
theorem lt_of_inBand {n v : Nat} (h : InBand n v) : v < 2 ^ 64 := by
  obtain ⟨b, hb, -, -, hle⟩ := h
  have htop : ∀ b ∈ sizeBands, b.2.2 < 2 ^ 64 := by decide
  exact Nat.lt_of_le_of_lt hle (htop b hb)

theorem eq_sizeOfValue_of_inBand {n v : Nat} (h : InBand n v) : n = sizeOfValue v :=
  (inBand_iff n v (lt_of_inBand h)).mp h

/-- A form begins with the Value itself, or with the header of its size (R102). -/
theorem headNat_encForm (v : Value) :
    headNat (encForm v) = if sizeOfValue v.toNat = 1 then v.toNat else 0xF8 + (sizeOfValue v.toNat - 2) := by
  rcases Nat.lt_or_ge v.toNat 248 with h | h
  · rw [encForm_single v h, if_pos (sizeOfValue_single _ h), headNat_cons, BitVec.toNat_ofNat]
    exact Nat.mod_eq_of_lt (by omega)
  · obtain ⟨h2, h9, -, -⟩ := sizeOfValue_multi v.toNat h v.isLt
    rw [encForm_multi v h, if_neg (by omega), headNat_cons, headerOfSize_toNat _ h2 h9]

/-- From BASE on, the size is 2 for BASE itself and else 2 plus the index of the top byte of `v - BASE`. -/
theorem sizeOfValue_of_topByte {v k : Nat} (hv : v < 2 ^ 64) (hbase : 248 ≤ v)
    (h : v = 248 ∧ k = 0 ∨ 256 ^ k ≤ v - 248 ∧ v - 248 < 256 ^ (k + 1)) : sizeOfValue v = k + 2 := by
  rcases h with ⟨rfl, rfl⟩ | ⟨hlow, hhigh⟩
  · rfl
  · have hk : k < 8 := by
      have hpow : 256 ^ k < 256 ^ 8 := by omega
      exact (Nat.pow_lt_pow_iff_right (by decide)).mp hpow
    exact sizeOfValue_unique v (k + 2) (by omega) (by omega) hbase hhigh fun _ => hlow

/-- Settles O13: each band is the one of its size, so the clauses after the encoding are `exec_size`, `headNat_encForm`,
`sizeOfValue_mono` and `sizeOfValue_of_topByte`. -/
theorem sizeIsBandLength : Obligations.SizeIsBandLength := by
  refine ⟨fun v => (decodeRequest_select v).1, fun v s => ?_, fun v n hn => ?_, fun v w n m hn hm hle => ?_,
    fun v k s hbase hk => ?_⟩
  · exact ⟨sizeOfValue v.toNat, (inBand_iff _ _ v.isLt).mpr rfl, exec_size v s⟩
  · rw [eq_sizeOfValue_of_inBand hn]
    exact headNat_encForm v
  · rw [eq_sizeOfValue_of_inBand hn, eq_sizeOfValue_of_inBand hm]
    exact sizeOfValue_mono v w hle
  · rw [exec_size, sizeOfValue_of_topByte v.isLt hbase hk, Nat.add_comm k 2]

/-! ### HSIZE (R91) -/

theorem exec_hsize (h : Value) (s : State) : exec (.hsize h) s = .next (answered s (reply (.hsize h) s)) :=
  exec_inContract rfl s

theorem reply_hsize_domain {h : Value} (hd : 255 < h.toNat) (s : State) : reply (.hsize h) s = .error .domain :=
  if_pos hd

theorem reply_hsize_single {h : Value} (hh : h.toNat < 248) (s : State) : reply (.hsize h) s = .ok 1#4 none := by
  rw [reply, if_neg (by omega), formLength_single _ hh]

theorem reply_hsize_multi {h : Value} (hh : 248 ≤ h.toNat) (hle : h.toNat ≤ 255) (s : State) :
    reply (.hsize h) s = .ok (BitVec.ofNat 4 (h.toNat - 248 + 2)) none := by
  rw [reply, if_neg (by omega), formLength_multi _ hh]

/-! ### The bits of a header -/

theorem upperBits_eq_zero_iff (h : Value) : h.extractLsb' 8 56 = 0#56 ↔ h.toNat ≤ 255 := by
  have hlt := h.isLt
  rw [← BitVec.toNat_inj, BitVec.extractLsb'_toNat, Nat.shiftRight_eq_div_pow, BitVec.toNat_ofNat]
  omega

theorem topFiveBits_eq_ones_iff {h : Value} (hle : h.toNat ≤ 255) :
    h.extractLsb' 3 5 = 0b11111#5 ↔ 248 ≤ h.toNat := by
  rw [← BitVec.toNat_inj, BitVec.extractLsb'_toNat, Nat.shiftRight_eq_div_pow, BitVec.toNat_ofNat]
  omega

/-- BASE is a multiple of eight, so the low three bits of a multi-byte header are its distance from BASE. -/
theorem lowThreeBits_add_two {h : Value} (hh : 248 ≤ h.toNat) (hle : h.toNat ≤ 255) :
    (h.extractLsb' 0 3).setWidth 4 + 2#4 = BitVec.ofNat 4 (h.toNat - 248 + 2) := by
  rw [← BitVec.toNat_inj, BitVec.toNat_add, BitVec.toNat_setWidth, BitVec.extractLsb'_toNat, Nat.shiftRight_zero,
    BitVec.toNat_ofNat, BitVec.toNat_ofNat]
  omega

/-- The answer by the bits of the header is the answer by its number. -/
theorem reply_hsize_eq_bits (h : Value) (s : State) :
    reply (.hsize h) s =
      if h.extractLsb' 8 56 ≠ 0#56 then .error .domain
      else if h.extractLsb' 3 5 = 0b11111#5 then .ok ((h.extractLsb' 0 3).setWidth 4 + 2#4) none
      else .ok 1#4 none := by
  have hupper := upperBits_eq_zero_iff h
  rcases Nat.lt_or_ge 255 h.toNat with hd | hle
  · rw [if_pos ((not_congr hupper).mpr (Nat.not_le.mpr hd)), reply_hsize_domain hd]
  rw [if_neg (not_not_intro (hupper.mpr hle))]
  have htop := topFiveBits_eq_ones_iff hle
  rcases Nat.lt_or_ge h.toNat 248 with hh | hh
  · rw [if_neg ((not_congr htop).mpr (Nat.not_le.mpr hh)), reply_hsize_single hh]
  · rw [if_pos (htop.mpr hh), lowThreeBits_add_two hh hle, reply_hsize_multi hh hle]

/-- Settles O14: HSIZE only answers, and its reply is given by the bits of the header and by its number. -/
theorem hsizeIsAnnouncedLength : Obligations.HsizeIsAnnouncedLength := by
  refine ⟨fun h => (decodeRequest_select h).2.1, fun h s => ?_⟩
  rw [exec_hsize]
  refine ⟨?_, fun hd => ?_, fun hh => ?_, fun hh hle => ?_⟩
  · rw [reply_hsize_eq_bits]
  · rw [reply_hsize_domain hd]
  · rw [reply_hsize_single hh]
  · rw [reply_hsize_multi hh hle]

end Sys2Proof.Machine
end

section
/-!
PROOFS. The encoder: the form of a Value, ENC and ENCS on any state, and a run of ENCS (41_encoder.md R100 to R102,
20_memory.md R48, R49).
-/

namespace Sys2Proof.Machine

open Sys2Proof.Safety

/-! ### The form of a Value (R102) -/

/-- The form of a Value represents it: the header byte below BASE, else the body plus BASE (R61, R62). -/
@[simp] theorem formValue_encForm (v : Value) : formValue (encForm v) = v.toNat := by
  rcases Nat.lt_or_ge v.toNat 248 with h | h
  · have hhead : headNat (encForm v) = v.toNat := by rw [headNat_encForm, if_pos (sizeOfValue_single _ h)]
    rw [formValue, hhead, if_pos h]
  · have hsize := sizeOfValue_multi v.toNat h v.isLt
    have hhead : 248 ≤ headNat (encForm v) := by
      rw [headNat_encForm, if_neg (by omega)]
      omega
    rw [formValue, if_neg (Nat.not_lt.mpr hhead), encForm_multi v h, List.tail_cons, be_bodyOfValue _ h v.isLt]
    exact Nat.sub_add_cancel h

/-- A valid form of three bytes or more has no leading zero in its body (R66). -/
theorem validForm_no_leading_zero {f : List Byte} (hf : ValidForm f) (h3 : 3 ≤ f.length) : f[1]? ≠ some 0x00#8 := by
  rcases hf with ⟨h1, -⟩ | ⟨-, -, h2 | hnz, -⟩
  · omega
  · omega
  · exact hnz

/-- Settles O17: `validForm_encForm`, `formValue_encForm`, the band of the form's length, and R66's clause on zeros. -/
theorem encFormIsValidFormOfItsValue : Obligations.EncFormIsValidFormOfItsValue := fun v =>
  ⟨validForm_encForm v, formValue_encForm v, (inBand_iff _ _ v.isLt).mpr (length_encForm v),
    validForm_no_leading_zero (validForm_encForm v)⟩

/-! ### ENC and ENCS (R100, R101) -/

theorem exec_enc (v : Value) (s : State) :
    exec (.enc v) s = .next (answered (accessed { s with sink := s.sink ++ encForm v } (sinkAppends (encForm v)))
      (.ok (BitVec.ofNat 4 (sizeOfValue v.toNat)) none)) := by
  rw [exec_inContract rfl, effect_enc]
  rfl

theorem decodeRequest_encs (v : Value) : decodeRequest (3#3 ++ v) = .encs v := by
  simp [decodeRequest_select]

theorem exec_encs (v : Value) (s : State) :
    exec (.encs v) s = .next (answered (accessed { s with ssink := s.ssink ++ encForm v } [.streamWrite (encForm v)])
      (.ok (BitVec.ofNat 4 (sizeOfValue v.toNat)) none)) :=
  exec_inContract rfl s

/-- Settles O18: `exec_enc`, and the form is as long as SIZE says. -/
theorem encAppendsCanonicalForm : Obligations.EncAppendsCanonicalForm := by
  refine ⟨fun v => ?_, fun v s => ?_⟩
  · simp [decodeRequest_select]
  · rw [length_encForm]
    exact ⟨exec_enc v s, exec_size v s⟩

/-- Settles O19: `exec_encs`, and the form is as long as SIZE says. -/
theorem encsWritesFormInOneEvent : Obligations.EncsWritesFormInOneEvent := by
  refine ⟨decodeRequest_encs, fun v s => ?_⟩
  rw [length_encForm]
  exact ⟨exec_encs v s, exec_size v s⟩

/-! ### A run of ENCS (R48, R49) -/

/-- A run of one step more goes on from where the first step ends. -/
theorem run_succ_of_step {s t : State} (h : step s = .next t) (n : Nat) :
    Host.Core.run core (n + 1) s = Host.Core.run core n t := by
  have hcore : core.step s = .next t := h
  simp only [Host.Core.run, hcore]

theorem step_encs {s : State} {v : Value} {rest : List Input} (h : s.inputs = .request (3#3 ++ v) :: rest) :
    ∃ t, step s = .next t ∧ t.inputs = rest ∧ t.ssink = s.ssink ++ encForm v ∧
      writeEvents t.accesses = writeEvents s.accesses ++ [encForm v] := by
  have hstep : step s = exec (.encs v) { s with inputs := rest } := by
    rw [step_of_inputs_cons h, serve, decodeRequest_encs]
  exact ⟨_, hstep.trans (exec_encs v _), rfl, rfl, writeEvents_append _ _⟩

/-- A run of ENCS from any state: one event a Value, and the forms in order at the end of `SSINK`. -/
theorem run_encs (vs : List Value) {s : State} {k : List Input}
    (h : s.inputs = vs.map (fun v => Input.request (3#3 ++ v)) ++ k) :
    ∃ t, Host.Core.run core vs.length s = .next t ∧ t.inputs = k ∧ t.ssink = s.ssink ++ (vs.map encForm).flatten ∧
      writeEvents t.accesses = writeEvents s.accesses ++ vs.map encForm := by
  induction vs generalizing s with
  | nil => exact ⟨s, rfl, h, by simp, by simp⟩
  | cons v vs ih =>
    obtain ⟨m, hstep, hinputs, hssink, hevents⟩ := step_encs h
    obtain ⟨t, hrun, hrest, hforms, hall⟩ := ih hinputs
    refine ⟨t, ?_, hrest, ?_, ?_⟩
    · rw [List.length_cons, run_succ_of_step hstep, hrun]
    · simp [hforms, hssink]
    · simp [hall, hevents]

/-- What an atomic reader sees of events that are whole forms is the forms of the first so many Values. -/
theorem seesAtomic_encForms {vs : List Value} {before view : List Byte}
    (h : SeesAtomic before (vs.map encForm) view) :
    ∃ n, n ≤ vs.length ∧ view = before ++ ((vs.take n).map encForm).flatten := by
  obtain ⟨n, hn, rfl⟩ := h
  exact ⟨n, by simpa using hn, by rw [List.map_take]⟩

/-- Settles O42: the events that `run_encs` adds are the forms, which is what an atomic reader sees. -/
theorem encsStreamIsWholeForms : Obligations.EncsStreamIsWholeForms := by
  intro vs s k h
  obtain ⟨t, hrun, hinputs, hssink, hevents⟩ := run_encs vs h
  refine ⟨t, hrun, hinputs, hssink, hevents, fun view hview => ?_⟩
  rw [hevents, List.drop_left] at hview
  exact seesAtomic_encForms hview

end Sys2Proof.Machine
end

section
/-!
PROOFS. The decoder: the core on its own, DEC and DECS on each class of input and on a whole form, and a run of DECS
(42_decoder.md R110 to R113, 20_memory.md R56).
-/

namespace Sys2Proof.Machine

open Sys2Proof.Safety

/-! ### The core (R110) -/

theorem exec_decb_inside {h : Byte} {n : Nat} {body : List Byte} (c : CoreContract h n body) (s : State) :
    exec (.decb h n body) s = .next (answered s (coreResponse n body)) :=
  coreCall_inside c s

theorem exec_decb_outside {h : Byte} {n : Nat} {body : List Byte} (c : ¬ CoreContract h n body) (s : State) :
    exec (.decb h n body) s = .refused .outsideCoreContract :=
  coreCall_outside c s

/-- No select code of R71 is the core's: a decoded request is carried as its word, a core call as its operands. -/
theorem decodeRequest_ne_decb (w : RequestWord) (h : Byte) (n : Nat) (body : List Byte) :
    decodeRequest w ≠ .decb h n body := by
  intro e
  have hcode := encode_decodeRequest w
  rw [e] at hcode
  cases hcode

/-- Settles O22: a request word is no core call, the contract decides between answer and refusal, and the answer is that
of the first check that fails, or the Value. -/
theorem decbChecksInOrder : Obligations.DecbChecksInOrder := by
  refine ⟨decodeRequest_ne_decb, fun h n body s => ⟨fun c => exec_decb_outside c s, fun c => ?_⟩⟩
  rw [exec_decb_inside c s]
  refine ⟨fun hlen => ?_, fun hlen hlong hzero => ?_, fun hlen hcheck => ?_⟩
  · rw [coreResponse_wrongLength hlen]
  · rw [coreResponse_leadingZero hlen hlong hzero]
  · have hcanon : body.length ≤ 1 ∨ body[0]? ≠ some 0x00#8 :=
      (Decidable.not_and_iff_not_or_not.mp hcheck).imp_left Nat.not_lt.mp
    refine ⟨fun hlarge => ?_, fun hsmall => ?_⟩
    · rw [coreResponse_tooLarge hlen hcanon hlarge]
    · rw [coreResponse_valid hlen hcanon hsmall]

/-- A multi-byte form and a call of the core with the announced length are one thing. -/
theorem multiByteForm_eq_exec_decb (h : Byte) (body : List Byte) (s : State) :
    multiByteForm h body s = exec (.decb h (formLength h.toNat) body) s := rfl

/-- Settles O35: each row is the multi-byte form of its header, and the header announces the length that is given. -/
theorem wireFormsDriveTheCore : Obligations.WireFormsDriveTheCore := fun b s =>
  ⟨multiByteForm_eq_exec_decb 0xF8#8 b s, multiByteForm_eq_exec_decb 0xF9#8 b s, multiByteForm_eq_exec_decb 0xFA#8 b s,
    multiByteForm_eq_exec_decb 0xFB#8 b s, multiByteForm_eq_exec_decb 0xFC#8 b s, multiByteForm_eq_exec_decb 0xFD#8 b s,
    multiByteForm_eq_exec_decb 0xFE#8 b s, multiByteForm_eq_exec_decb 0xFF#8 b s⟩

/-! ### DEC (R111) -/

theorem decodeRequest_dec (x : Value) : decodeRequest (4#3 ++ x) = .dec x := by
  simp [decodeRequest_select]

/-- Settles O25: `exec_dec`, and what `dec` answers on each class; of an empty buffer only the first read is made. -/
theorem decAnswersByClass : Obligations.DecAnswersByClass := by
  refine ⟨decodeRequest_dec, fun x s => ?_⟩
  rw [exec_dec]
  refine ⟨fun h => ?_, fun h => ?_, fun h => ?_, fun h => ?_, fun form rest hbuf hv => ?_⟩
  · rw [decForm_of_empty h, List.eq_nil_of_length_eq_zero h]
    rfl
  · rw [decForm_of_truncated h]
  · rw [decForm_of_noncanonical h]
  · rw [decForm_of_overflow h]
  · rw [hbuf, decForm_of_validForm hv]

/-! ### DECS (R112) -/

theorem decodeRequest_decs (x : Value) : decodeRequest (5#3 ++ x) = .decs x := by
  simp [decodeRequest_select]

/-- A valid form is as long as it announces, whatever follows it. -/
theorem formLength_headNat_of_validForm {form : List Byte} (hv : ValidForm form) (rest : List Byte) :
    formLength (headNat (form ++ rest)) = form.length := by
  cases form with
  | nil => exact absurd hv (by decide)
  | cons h body =>
    rw [List.cons_append, headNat_cons]
    rcases Nat.lt_or_ge h.toNat 248 with hh | hh
    · rw [(validForm_single hh).mp hv, formLength_single _ hh]
      rfl
    · have hlen := ((validForm_multi hh).mp hv).1
      have hpos := (formLength_byte h).1
      rw [List.length_cons]
      omega

/-- DECS on a valid form at the front of `SRC` takes that form and gives its Value (R112). -/
theorem exec_decs_of_validForm {s : State} {form rest : List Byte} (hsrc : s.src = form ++ rest) (hv : ValidForm form)
    (x : Value) :
    exec (.decs x) s = .next (answered (accessed { s with src := rest } (srcReads s.src)) (decoded form)) := by
  have hrest : s.src.drop (formLength (headNat s.src)) = rest := by
    rw [hsrc, formLength_headNat_of_validForm hv, List.drop_left]
  rw [exec_decs, hrest, hsrc, decForm_of_validForm hv]

/-- Settles O26: `exec_decs`, what `dec` answers on each class, and the announced length of each, which is taken. -/
theorem decsAnswersByClass : Obligations.DecsAnswersByClass := by
  refine ⟨decodeRequest_decs, fun x s => ⟨fun h => ?_, fun h => ?_, fun h => ?_, fun h => ?_,
    fun form rest hsrc hv => exec_decs_of_validForm hsrc hv x⟩⟩
  · have hnil : s.src = [] := List.eq_nil_of_length_eq_zero h
    rw [exec_decs, decForm_of_empty h, hnil]
    rfl
  · have hall : s.src.drop (formLength (headNat s.src)) = [] :=
      List.drop_of_length_le (by rw [formLength_multi _ h.1]; exact Nat.le_of_lt h.2)
    rw [exec_decs, decForm_of_truncated h, hall]
  · have ⟨_, hhead, _⟩ := h
    rw [exec_decs, decForm_of_noncanonical h, formLength_multi _ (by omega)]
  · have ⟨_, hhead, _⟩ := h
    rw [exec_decs, decForm_of_overflow h, formLength_multi _ (by omega)]

/-! ### `dec` and the forms it reads (R64, R113) -/

/-- Settles O28: `exec_dec` and `exec_decs`. -/
theorem decAndDecsAnswerDec : Obligations.DecAndDecsAnswerDec := fun x s =>
  ⟨⟨_, exec_dec x s, rfl⟩, ⟨_, exec_decs x s, rfl⟩⟩

/-- Settles O36: the form that is read answers what `dec` answers for the buffer, and DEC only reads before that. -/
theorem decRunsFormAtFrontOfBuffer : Obligations.DecRunsFormAtFrontOfBuffer := fun x s i rest h => by
  rw [exec_dec, exec_of_decodeForm h]

/-- Settles O37: `exec_decs_of_decodeForm`. -/
theorem decsRunsFormAtFrontOfSource : Obligations.DecsRunsFormAtFrontOfSource := fun x _ _ _ h =>
  exec_decs_of_decodeForm h x

/-! ### A run of DECS (R56, R112) -/

theorem decoded_encForm (v : Value) :
    decoded (encForm v) = .ok (BitVec.ofNat 4 (encForm v).length) (some v) := by
  rw [decoded, formValue_encForm, BitVec.ofNat_toNat, BitVec.setWidth_eq]

/-- A DECS whose request is next takes the form at the front of `SRC` and returns its Value. -/
theorem step_decs_encForm {s : State} {x v : Value} {inputs : List Input} {rest : List Byte}
    (hin : s.inputs = .request (5#3 ++ x) :: inputs) (hsrc : s.src = encForm v ++ rest) :
    ∃ t, step s = .next t ∧ t.inputs = inputs ∧ t.src = rest ∧
      t.responses = s.responses ++ [.ok (BitVec.ofNat 4 (encForm v).length) (some v)] := by
  have hstep : step s = exec (.decs x) { s with inputs := inputs } := by
    rw [step_of_inputs_cons hin, serve, decodeRequest_decs]
  rw [← decoded_encForm]
  exact ⟨_, hstep.trans (exec_decs_of_validForm (s := { s with inputs := inputs }) hsrc (validForm_encForm v) x),
    rfl, rfl, rfl⟩

/-- Settles O43: by induction on the Values, from any state: each DECS leaves the rest of the stream to the others. -/
theorem decsReadsBackStream : Obligations.DecsReadsBackStream := by
  intro vs x s k rest hin hsrc
  induction vs generalizing s with
  | nil => exact ⟨s, rfl, hin, hsrc, by simp⟩
  | cons v vs ih =>
    rw [List.map_cons, List.flatten_cons, List.append_assoc] at hsrc
    obtain ⟨m, hstep, hinputs, hforms, hfirst⟩ := step_decs_encForm hin hsrc
    obtain ⟨t, hrun, hrest, hleft, hall⟩ := ih m hinputs hforms
    refine ⟨t, ?_, hrest, hleft, ?_⟩
    · rw [List.length_cons, run_succ_of_step hstep, hrun]
    · simp [hall, hfirst]

end Sys2Proof.Machine
end

section
/-!
PROOFS. The laws of the codec: one valid form for each Value, the round trip, what decoding accepts, what it makes of more or
fewer bytes, and when the exact sum overflows (43_codec_laws.md R132 to R140).
-/

namespace Sys2Proof.Machine

open Sys2Proof.Safety

/-! ### One valid form for each Value (R135, R137) -/

theorem formValue_single {h : Byte} {body : List Byte} (hh : h.toNat < 248) : formValue (h :: body) = h.toNat :=
  if_pos hh

theorem formValue_multi {h : Byte} {body : List Byte} (hh : 248 ≤ h.toNat) : formValue (h :: body) = be body + 248 :=
  if_neg (Nat.not_lt.mpr hh)

theorem formValue_lt_of_validForm {f : List Byte} (hf : ValidForm f) : formValue f < 2 ^ 64 := by
  rcases hf with ⟨-, hhead⟩ | ⟨hhead, -, -, hrange⟩
  · rw [formValue, if_pos hhead]
    omega
  · rw [formValue, if_neg (Nat.not_lt.mpr hhead)]
    omega

/-- SIZE gives the length of a valid form: the body fits its bytes, and without a leading zero it fills them. -/
theorem sizeOfValue_formValue {f : List Byte} (hf : ValidForm f) : sizeOfValue (formValue f) = f.length := by
  cases f with
  | nil => exact absurd hf (by decide)
  | cons h body =>
    rcases Nat.lt_or_ge h.toNat 248 with hh | hh
    · rw [(validForm_single hh).mp hf, formValue_single hh, sizeOfValue_single _ hh]
      rfl
    · obtain ⟨hlen, hcanon, -⟩ := (validForm_multi hh).mp hf
      have hn := formLength_multi _ hh
      have hbyte := formLength_byte h
      rw [formValue_multi hh, List.length_cons]
      refine sizeOfValue_unique _ _ (by omega) (by omega) (Nat.le_add_left _ _) ?_ fun h3 => ?_
      · rw [Nat.add_sub_cancel, Nat.add_sub_cancel]
        exact be_lt body
      · rw [Nat.add_sub_cancel]
        cases body with
        | nil => exact absurd h3 (by decide)
        | cons b tl =>
          have hb : b ≠ 0x00#8 := by simpa using hcanon.resolve_left (by omega)
          exact le_be_cons b tl hb

/-- A valid form is `enc` of the Value it represents: SIZE fixes the length, so the header, and the body is the number
below that many bytes. -/
theorem eq_encForm_of_validForm {f : List Byte} (hf : ValidForm f) {v : Value} (hv : formValue f = v.toNat) :
    f = encForm v := by
  have hsize : sizeOfValue v.toNat = f.length := by rw [← hv, sizeOfValue_formValue hf]
  cases f with
  | nil => exact absurd hf (by decide)
  | cons h body =>
    rcases Nat.lt_or_ge h.toNat 248 with hh | hh
    · rw [formValue_single hh] at hv
      rw [(validForm_single hh).mp hf, encForm_single v (hv ▸ hh), ← hv, BitVec.ofNat_toNat, BitVec.setWidth_eq]
    · rw [formValue_multi hh] at hv
      obtain ⟨hlen, -, -⟩ := (validForm_multi hh).mp hf
      have hn := formLength_multi _ hh
      have hbyte := formLength_byte h
      have hheader : h = headerOfSize (body.length + 1) :=
        BitVec.eq_of_toNat_eq (by rw [headerOfSize_toNat _ (by omega) (by omega)]; omega)
      have hbody : bodyOfValue v.toNat = body := by
        rw [bodyOfValue, hsize, ← hv, base_eq, Nat.add_sub_cancel, List.length_cons, Nat.add_sub_cancel, bytesBe_be]
      rw [encForm_multi v (by omega), hbody, hsize, List.length_cons, ← hheader]

/-- Settles O40: `enc(v)` is valid and represents `v`, and `eq_encForm_of_validForm` says that no other form does. -/
theorem exactlyOneValidFormPerValue : Obligations.ExactlyOneValidFormPerValue := fun v =>
  ⟨validForm_encForm v, formValue_encForm v, fun _ hf hv => eq_encForm_of_validForm hf hv⟩

/-- A body that holds `v - BASE` is no shorter than the one SIZE counts. -/
theorem sizeOfValue_le_of_lt_pow {v n : Nat} (hbase : 248 ≤ v) (hv : v < 2 ^ 64) (hn : 2 ≤ n)
    (hlt : v - 248 < 256 ^ (n - 1)) : sizeOfValue v ≤ n := by
  obtain ⟨-, -, -, hfull⟩ := sizeOfValue_multi v hbase hv
  rcases Nat.lt_or_ge (sizeOfValue v) 3 with hs | hs
  · omega
  · have hexp : sizeOfValue v - 2 < n - 1 :=
      (Nat.pow_lt_pow_iff_right (by decide)).mp (Nat.lt_of_le_of_lt (hfull hs) hlt)
    omega

/-- No complete form of a Value, valid or not, is shorter than `enc` of it (R137). -/
theorem length_encForm_le_of_completeForm {f : List Byte} (hf : CompleteForm f) {v : Value}
    (hv : formValue f = v.toNat) : (encForm v).length ≤ f.length := by
  rw [length_encForm]
  rcases hf with ⟨hlen, hhead⟩ | ⟨hhead, hlen⟩
  · rw [formValue, if_pos hhead] at hv
    rw [sizeOfValue_single _ (hv ▸ hhead)]
    exact Nat.le_of_eq hlen.symm
  · rw [formValue, if_neg (Nat.not_lt.mpr hhead)] at hv
    have hbody := be_lt f.tail
    rw [List.length_tail] at hbody
    exact sizeOfValue_le_of_lt_pow (by omega) v.isLt (by omega) (by omega)

/-! ### What decoding accepts (R134, R136) -/

/-- Decoding succeeds exactly on `enc` of some Value with anything after it, and gives that Value and its size. -/
theorem decForm_eq_ok_iff {s : List Byte} {c : Count} {v : Value} :
    decForm s = .ok c (some v) ↔ (∃ rest, s = encForm v ++ rest) ∧ c = BitVec.ofNat 4 (encForm v).length := by
  constructor
  · intro h
    rcases input_class s with hs | hs | hs | hs | ⟨form, rest, rfl, hform⟩
    · rw [decForm_of_empty hs] at h
      cases h
    · rw [decForm_of_truncated hs] at h
      cases h
    · rw [decForm_of_noncanonical hs] at h
      cases h
    · rw [decForm_of_overflow hs] at h
      cases h
    · rw [decForm_of_validForm hform, decoded] at h
      cases h
      have hvalue : formValue form = (BitVec.ofNat 64 (formValue form)).toNat := by
        rw [BitVec.toNat_ofNat, Nat.mod_eq_of_lt (formValue_lt_of_validForm hform)]
      rw [← eq_encForm_of_validForm hform hvalue]
      exact ⟨⟨rest, rfl⟩, rfl⟩
  · rintro ⟨⟨rest, rfl⟩, rfl⟩
    rw [decForm_of_validForm (validForm_encForm v), decoded_encForm]

/-- The size of a Value fits the count field (R130). -/
theorem toNat_count_encForm (v : Value) : (BitVec.ofNat 4 (encForm v).length).toNat = (encForm v).length := by
  have hrange := sizeOfValue_range v.toNat v.isLt
  rw [length_encForm, BitVec.toNat_ofNat]
  omega

/-- Settles O38: ENC appended `enc(v)`, so that is the buffer DEC decodes. -/
theorem roundTrip : Obligations.RoundTrip := by
  intro v x s
  have hdec : decForm ((s.sink ++ encForm v).drop s.sink.length) =
      .ok (BitVec.ofNat 4 (sizeOfValue v.toNat)) (some v) := by
    rw [List.drop_left, ← length_encForm]
    exact decForm_eq_ok_iff.mpr ⟨⟨[], by simp⟩, rfl⟩
  exact ⟨_, _, _, exec_enc v s, rfl, exec_dec x _, congrArg some hdec, exec_size v s⟩

/-- Settles O39: both answer `dec` of their bytes, which accepts nothing but `enc` of the Value, and DECS takes what
its header announces. -/
theorem decoderAcceptsCanonicalFormsOnly : Obligations.DecoderAcceptsCanonicalFormsOnly := by
  intro x s t c v
  refine ⟨fun ht hr => ?_, fun ht hr => ?_⟩
  · rw [exec_dec] at ht
    cases ht
    obtain ⟨⟨rest, hbuf⟩, rfl⟩ := decForm_eq_ok_iff.mp (Option.some.inj hr)
    rw [toNat_count_encForm, length_encForm, exec_size, ← length_encForm, hbuf, List.take_left]
    exact ⟨rfl, rfl, rfl⟩
  · rw [exec_decs] at ht
    cases ht
    obtain ⟨⟨rest, hsrc⟩, rfl⟩ := decForm_eq_ok_iff.mp (Option.some.inj hr)
    have hrest : s.src.drop (formLength (headNat s.src)) = rest := by
      rw [hsrc, formLength_headNat_of_validForm (validForm_encForm v), List.drop_left]
    refine ⟨?_, toNat_count_encForm v, ?_⟩
    · rw [hrest, hsrc]
    · rw [exec_size, length_encForm]

/-- Settles O41: SIZE counts `enc(v)`, decoding accepts no other form of `v`, and a complete form is no shorter. -/
theorem canonicalFormIsShortest : Obligations.CanonicalFormIsShortest := by
  refine fun v s => ⟨?_, fun b c h => (decForm_eq_ok_iff.mp h).2,
    fun f hf hv => length_encForm_le_of_completeForm hf hv⟩
  rw [exec_size, length_encForm]

/-! ### Header and size (R138) -/

/-- The header of `enc(v)` announces its length. -/
theorem formLength_headNat_encForm (v : Value) : formLength (headNat (encForm v)) = (encForm v).length := by
  have h := formLength_headNat_of_validForm (validForm_encForm v) []
  rwa [List.append_nil] at h

/-- A byte as the operand of HSIZE is answered with the length it announces. -/
theorem exec_hsize_byte (h : Byte) (s : State) :
    exec (.hsize (h.setWidth 64)) s = .next (answered s (.ok (BitVec.ofNat 4 (formLength h.toNat)) none)) := by
  have hbyte := h.isLt
  have hwide : (h.setWidth 64).toNat = h.toNat := BitVec.toNat_setWidth_of_le (by decide)
  rw [exec_hsize, reply, hwide, if_neg (by omega)]

/-- Settles O15: the header of `enc(v)` announces its length, which is what SIZE says. -/
theorem headerAndSizeAgree : Obligations.HeaderAndSizeAgree := by
  intro v s
  have hlen : formLength ((encForm v).headD 0x00#8).toNat = (encForm v).length := formLength_headNat_encForm v
  rw [exec_hsize_byte, hlen, length_encForm, exec_size]

/-! ### More and fewer bytes (R139, R140) -/

/-- Some bytes are truncated exactly when there are fewer than the first one announces. -/
theorem truncatedInput_iff_length_lt {s : List Byte} (hs : s ≠ []) :
    TruncatedInput s ↔ s.length < formLength (headNat s) := by
  have hpos := List.length_pos_iff.mpr hs
  rcases Nat.lt_or_ge (headNat s) 248 with hh | hh
  · rw [formLength_single _ hh, TruncatedInput]
    omega
  · rw [formLength_multi _ hh]
    exact and_iff_right hh

/-- Settles O30: the announced bytes are all there, and `dec` depends on those alone. -/
theorem trailingBytesDoNotMatter : Obligations.TrailingBytesDoNotMatter := by
  intro s t htrunc hempty
  have hs : s ≠ [] := fun h => hempty (by rw [h, decForm_nil])
  have hlen : formLength (headNat s) ≤ s.length :=
    Nat.not_lt.mp fun h => htrunc (decForm_of_truncated ((truncatedInput_iff_length_lt hs).mpr h))
  have hhead : headNat (s ++ t) = headNat s := by
    obtain ⟨h, rest, rfl⟩ := List.exists_cons_of_ne_nil hs
    rfl
  calc decForm (s ++ t) = decForm ((s ++ t).take (formLength (headNat s))) := by
        rw [← hhead, decForm_take_formLength]
    _ = decForm (s.take (formLength (headNat s))) := by rw [List.take_append_of_le_length hlen]
    _ = decForm s := decForm_take_formLength s

/-- Settles O31: a cut keeps the header of `enc(v)`, which announces more bytes than are left. -/
theorem cutFormsAreTruncated : Obligations.CutFormsAreTruncated := by
  intro v k hk
  rcases Nat.eq_zero_or_pos k with rfl | hpos
  · rfl
  · have hlen : ((encForm v).take k).length = k := List.length_take_of_le (Nat.le_of_lt hk)
    have hne : (encForm v).take k ≠ [] := List.ne_nil_of_length_pos (by omega)
    rw [if_neg (by omega)]
    refine decForm_of_truncated ((truncatedInput_iff_length_lt hne).mpr ?_)
    rwa [headNat_take _ hpos, formLength_headNat_encForm, hlen]

/-! ### Overflow (R132, R154) -/

/-- What a transaction answered can be read off its outcome. -/
theorem next_answered_inj {s : State} {q r : Response} :
    (.next (answered s q) : Host.Outcome State Fault Refusal) = .next (answered s r) ↔ q = r := by
  refine ⟨fun h => ?_, fun h => by rw [h]⟩
  exact Option.some.inj (congrArg State.response (Host.Outcome.next.inj h))

/-- A body whose sum with BASE is too large has eight bytes, under the header 0xFF, and no leading zero. -/
theorem eightByteBody_of_tooLarge {h : Byte} {n : Nat} {body : List Byte} (c : CoreContract h n body)
    (hlen : body.length = n - 1) (hlarge : 0xFFFFFFFFFFFFFF07 < be body) :
    h = 0xFF#8 ∧ body.length = 8 ∧ body[0]? ≠ some 0x00#8 := by
  obtain ⟨hbase, rfl, -⟩ := c
  have hn := formLength_multi _ hbase
  have hhead : h.toNat = 0xFF := header_of_tooLarge hbase (by rw [hn, hlen]) (by omega)
  have h8 : body.length = 8 := by rw [hlen, hhead]; rfl
  exact ⟨BitVec.eq_of_toNat_eq hhead, h8, getElem?_zero_ne_of_overflow h8 hlarge⟩

/-- Too large a sum rules out a leading zero, so the second check never hides an overflow. -/
theorem coreResponse_eq_overflow_iff {h : Byte} {n : Nat} {body : List Byte} (c : CoreContract h n body) :
    coreResponse n body = .error .overflow ↔ body.length = n - 1 ∧ 0xFFFFFFFFFFFFFF07 < be body := by
  constructor
  · intro hr
    by_cases hlen : body.length = n - 1
    · refine ⟨hlen, Nat.not_le.mp fun hsmall => ?_⟩
      by_cases hcheck : 1 < body.length ∧ body[0]? = some 0x00#8
      · obtain ⟨hlong, hzero⟩ := hcheck
        rw [coreResponse_leadingZero hlen hlong hzero] at hr
        cases hr
      · have hcanon := (Decidable.not_and_iff_not_or_not.mp hcheck).imp_left Nat.not_lt.mp
        rw [coreResponse_valid hlen hcanon (by omega)] at hr
        cases hr
    · rw [coreResponse_wrongLength hlen] at hr
      cases hr
  · rintro ⟨hlen, hlarge⟩
    obtain ⟨-, -, hfirst⟩ := eightByteBody_of_tooLarge c hlen hlarge
    exact coreResponse_tooLarge hlen (.inr hfirst) (by omega)

/-- Settles O24: inside its contract the core answers `coreResponse`, and too large a sum needs eight bytes. -/
theorem overflowNeedsEightByteBody : Obligations.OverflowNeedsEightByteBody := by
  intro h n body s c
  rw [exec_decb_inside c s, next_answered_inj, coreResponse_eq_overflow_iff c]
  exact ⟨Iff.rfl, fun ⟨hlen, hlarge⟩ => eightByteBody_of_tooLarge c hlen hlarge⟩

end Sys2Proof.Machine
end

section
/-!
PROOFS. How a transaction ends: every step and every well-formed instruction completes, and which status each operation can
return (60_exceptions.md R150, R157, R158, R160, R162, 70_reset_and_hazards.md R191).
-/

namespace Sys2Proof.Machine

open Sys2Proof.Safety

/-! ### Completion (R162, R191) -/

/-- Every move of the environment is served: a request is inside the contract, and the other moves only update a field. -/
theorem serve_completes (m : Input) (s : State) : ∃ t, serve m s = .next t := by
  cases m with
  | request w => exact ⟨_, exec_inContract (inContract_decodeRequest w) s⟩
  | _ => exact ⟨_, rfl⟩

/-- Settles O7: a step is idle, or it serves the move at the head of the inputs. -/
theorem stepAlwaysCompletes : Obligations.StepAlwaysCompletes := by
  intro s
  cases h : s.inputs with
  | nil => exact ⟨s, step_of_inputs_nil h⟩
  | cons m rest =>
    rw [step_of_inputs_cons h]
    exact serve_completes m _

/-- Settles O8: a well-formed instruction is inside the contract, and there every instruction runs to its response. -/
theorem wellFormedInstructionsComplete : Obligations.WellFormedInstructionsComplete :=
  fun i s h => ⟨_, exec_inContract (inContract_of_wellFormed i h) s⟩

/-! ### The status codes (R150) -/

theorem statusCode_ne_seven (r : Response) : statusCode r ≠ 7#3 := by
  cases r with
  | ok _ _ => simp [statusCode]
  | error e => cases e <;> decide

/-- Settles O47: the codes are those of the definition, and `statusCode_ne_seven`. -/
theorem statusCodesAreTheTables : Obligations.StatusCodesAreTheTables :=
  ⟨fun _ _ => rfl, rfl, rfl, rfl, rfl, rfl, rfl, statusCode_ne_seven⟩

/-! ### The statuses that the core and `dec` give (R157) -/

/-- The core gives one error for each of its three checks, or OK. -/
theorem statusCode_coreResponse_mem (n : Nat) (body : List Byte) :
    statusCode (coreResponse n body) ∈ [0#3, 2#3, 3#3, 4#3] := by
  unfold coreResponse
  split
  · decide
  split
  · decide
  split
  · decide
  · exact List.mem_cons_self

/-- Inside its contract the core gives each of them: for the form of BASE, and for a body that fails each check. -/
theorem exists_statusCode_coreResponse_iff (c : BitVec 3) :
    (∃ h n body, CoreContract h n body ∧ statusCode (coreResponse n body) = c) ↔ c ∈ [0#3, 2#3, 3#3, 4#3] := by
  constructor
  · rintro ⟨h, n, body, -, rfl⟩
    exact statusCode_coreResponse_mem n body
  · simp only [List.mem_cons, List.not_mem_nil, or_false]
    rintro (rfl | rfl | rfl | rfl)
    · exact ⟨0xF8#8, 2, [0x00#8], by decide⟩
    · exact ⟨0xF8#8, 2, [], by decide⟩
    · exact ⟨0xF9#8, 3, [0x00#8, 0x00#8], by decide⟩
    · exact ⟨0xFF#8, 9, List.replicate 8 0xFF#8, by decide⟩

/-- `dec` gives one status for each class of input (R67), and every class has an input. -/
theorem exists_statusCode_decForm_iff (c : BitVec 3) :
    (∃ b, statusCode (decForm b) = c) ↔ c ∈ [0#3, 2#3, 3#3, 4#3, 5#3] := by
  constructor
  · rintro ⟨b, rfl⟩
    rcases input_class b with h | h | h | h | h
    · rw [decForm_of_empty h]
      decide
    · rw [decForm_of_truncated h]
      decide
    · rw [decForm_of_noncanonical h]
      decide
    · rw [decForm_of_overflow h]
      decide
    · obtain ⟨_, _, e⟩ := decForm_of_beginsValid h
      rw [e]
      exact List.mem_cons_self
  · simp only [List.mem_cons, List.not_mem_nil, or_false]
    rintro (rfl | rfl | rfl | rfl | rfl)
    · exact ⟨[0x00#8], by decide⟩
    · exact ⟨[0xF8#8], by decide⟩
    · exact ⟨[0xF9#8, 0x00#8, 0x00#8], by decide⟩
    · exact ⟨List.replicate 9 0xFF#8, by decide⟩
    · exact ⟨[], by decide⟩

/-! ### The statuses of each operation (R158) -/

/-- An instruction leaves a status on the port when it is inside the contract and that is the status of its reply. -/
theorem exists_next_portStatus_iff (i : Instr) (s : State) (c : BitVec 3) :
    (∃ t, exec i s = .next t ∧ portStatus t = some c) ↔ inContract i = true ∧ statusCode (reply i s) = c := by
  constructor
  · rintro ⟨t, h, hc⟩
    obtain ⟨hin, rfl⟩ := exec_next h
    exact ⟨hin, Option.some.inj hc⟩
  · rintro ⟨hin, hc⟩
    exact ⟨_, exec_inContract hin s, congrArg some hc⟩

/-- An operation that replies with one status, whatever its operand and the state, can return that one and no other. -/
theorem exists_portStatus_iff_of_constant {op : Value → Instr} {k : BitVec 3} (hin : ∀ v, inContract (op v) = true)
    (hk : ∀ v s, statusCode (reply (op v) s) = k) (c : BitVec 3) :
    (∃ v s t, exec (op v) s = .next t ∧ portStatus t = some c) ↔ c ∈ [k] := by
  have : Nonempty State := ⟨State.reset⟩
  simp only [exists_next_portStatus_iff, hin, hk, true_and, exists_const, List.mem_singleton]
  exact eq_comm

/-- An operation that replies with `dec` of a byte space, which may hold any bytes, can return what `dec` can. -/
theorem exists_portStatus_iff_of_decForm {op : Value → Instr} {space : State → List Byte}
    (hin : ∀ x, inContract (op x) = true) (hreply : ∀ x s, reply (op x) s = decForm (space s))
    (hspace : ∀ b, ∃ s, space s = b) (c : BitVec 3) :
    (∃ x s t, exec (op x) s = .next t ∧ portStatus t = some c) ↔ c ∈ [0#3, 2#3, 3#3, 4#3, 5#3] := by
  rw [← exists_statusCode_decForm_iff]
  simp only [exists_next_portStatus_iff, hin, hreply, true_and]
  constructor
  · rintro ⟨_, s, hc⟩
    exact ⟨space s, hc⟩
  · rintro ⟨b, hc⟩
    obtain ⟨s, rfl⟩ := hspace b
    exact ⟨0#64, s, hc⟩

theorem exists_portStatus_hsize_iff (c : BitVec 3) :
    (∃ v s t, exec (.hsize v) s = .next t ∧ portStatus t = some c) ↔ c ∈ [0#3, 1#3] := by
  simp only [exists_next_portStatus_iff, List.mem_cons, List.not_mem_nil, or_false]
  constructor
  · rintro ⟨h, s, -, rfl⟩
    rw [reply]
    split
    · exact .inr rfl
    · exact .inl rfl
  · rintro (rfl | rfl)
    · exact ⟨0#64, State.reset, by decide⟩
    · exact ⟨256#64, State.reset, by decide⟩

/-- The contract and the reply of a core call are those of its operands, so the state plays no part. -/
theorem exists_portStatus_decb_iff (c : BitVec 3) :
    (∃ h n b s t, exec (.decb h n b) s = .next t ∧ portStatus t = some c) ↔ c ∈ [0#3, 2#3, 3#3, 4#3] := by
  have : Nonempty State := ⟨State.reset⟩
  simp only [exists_next_portStatus_iff, inContract, reply, decide_eq_true_eq, exists_const]
  exact exists_statusCode_coreResponse_iff c

/-- Settles O49: five operations reply with one status, DEC and DECS with that of `dec`, and HSIZE and the core have lemmas
of their own. -/
theorem statusesPerOperation : Obligations.StatusesPerOperation := fun c =>
  ⟨exists_portStatus_iff_of_constant (fun _ => rfl) (fun _ _ => rfl) c,
    exists_portStatus_hsize_iff c,
    exists_portStatus_iff_of_constant (fun _ => rfl) (fun _ _ => rfl) c,
    exists_portStatus_iff_of_constant (fun _ => rfl) (fun _ _ => rfl) c,
    exists_portStatus_decb_iff c,
    exists_portStatus_iff_of_decForm (space := State.buf) (fun _ => rfl) (fun _ _ => rfl)
      (fun b => ⟨{ State.reset with buf := b }, rfl⟩) c,
    exists_portStatus_iff_of_decForm (space := State.src) (fun _ => rfl) (fun _ _ => rfl)
      (fun b => ⟨{ State.reset with src := b }, rfl⟩) c,
    exists_portStatus_iff_of_constant (fun _ => rfl) (fun _ _ => rfl) c,
    exists_portStatus_iff_of_constant (fun _ => rfl) (fun _ _ => rfl) c⟩

end Sys2Proof.Machine
end

section
/-!
PROOFS. A reset between transactions, and the front end's calls of the core (70_reset_and_hazards.md R180, R188).
-/

namespace Sys2Proof.Machine

open Sys2Proof.Safety

/-! ### Reset (R180) -/

/-- No byte space holds the response port, so emptying the port leaves what an instruction reaches as it is. -/
theorem agreeOnReached_portEmptied (i : Instr) (s : State) : AgreeOnReached i s { s with response := none } :=
  fun p _ => by cases p <;> rfl

/-- The accesses of an instruction do not read the response port, and its response overwrites it. -/
theorem respond_effect_portEmptied (i : Instr) (s : State) (r : Response) :
    respond (effect i { s with response := none }) r = respond (effect i s) r := by
  cases i with
  | enc _ | encs _ | dec _ | decs _ => simp [respond]
  | _ => rfl

/-- Settles O3: the step serves the reset, which empties the port alone; `reply` reads a byte space or nothing, and the
accesses with the response that follows them do not depend on what the port held. -/
theorem resetChangesNothingARuleReads : Obligations.ResetChangesNothingARuleReads := by
  refine ⟨fun _ _ => step_of_inputs_cons, fun i s => ?_⟩
  rw [exec_eq, exec_eq, reply_congr (agreeOnReached_portEmptied i s), respond_effect_portEmptied]

/-! ### The front end and the core (R188) -/

/-- Settles O23: with a multi-byte header at the front, `dec` of the input is the core's answer on the announced bytes,
`coreContract_take` puts that call inside the contract, and DECS takes the header and those bytes. -/
theorem frontEndKeepsCoreContract : Obligations.FrontEndKeepsCoreContract := by
  intro h rest x s hh
  have hcall := coreContract_take h rest hh
  refine ⟨hcall, fun hbuf => ?_, fun hsrc => ?_⟩
  · rw [exec_dec, exec_decb_inside hcall, hbuf, decForm_multi h rest hh]
  · have htaken : s.src.drop (formLength (headNat s.src)) = rest.drop (formLength h.toNat - 1) := by
      rw [hsrc, headNat_cons, List.drop_cons (formLength_byte h).1]
    rw [exec_decs, exec_decb_inside hcall, htaken, hsrc, decForm_multi h rest hh]

end Sys2Proof.Machine
end
